-- ==== Sys2Proof/Word.lean ====
section
/-! DEFINITION. The word types of the block: the 8-bit byte (rule R7) and the 64-bit command word (rules R45, R46). -/

namespace Sys2Proof

/-- A byte is 8 bits (R7). -/
abbrev Byte := BitVec 8

/-- A command word `CMD[63:0]` (R45). The port is parallel, so a word has no byte order (R46). -/
abbrev Word := BitVec 64

end Sys2Proof
end

