-- ==== Sys2Proof/Syntax.lean ====
section
/-! DEFINITION. The twelve commands (rule R50) with the operands of their formats (rules R47 to R49). -/

namespace Sys2Proof

/-- One constructor per row of the opcode map (R50). An operand has the width of its field of the command word, so
every term of this type has an encoding. A field id is any 8-bit number: whether it names a register is a matter of
execution, not of decoding (R51, R55). -/
inductive Instr where
  /-- `SETF fid, val` (R81), format S. -/
  | setf (fid : BitVec 8) (val : BitVec 48)
  /-- `SER.MAC fid` (R85), format F. -/
  | serMac (fid : BitVec 8)
  /-- `SER.IP4 fid` (R86), format F. -/
  | serIp4 (fid : BitVec 8)
  /-- `PACK.ETH` (R92), format N. -/
  | packEth
  /-- `PACK.ARPH` (R97), format N. -/
  | packArph
  /-- `PACK.ARPP` (R101), format N. -/
  | packArpp
  /-- `PACK.IP4` (R107), format N. -/
  | packIp4
  /-- `PACK.UDP` (R113), format N. -/
  | packUdp
  /-- `CSUM.COMPUTE base, len, cw` (R69), format R. -/
  | csumCompute (base len : BitVec 16) (cw : BitVec 8)
  /-- `CSUM.VERIFY base, len` (R70), format R. -/
  | csumVerify (base len : BitVec 16)
  /-- `FRAME.CLEAR` (R121), format N. -/
  | frameClear
  /-- `FRAME.PUTB byte` (R122), format B. -/
  | framePutb (byte : Byte)
  deriving DecidableEq, Repr

end Sys2Proof
end

