-- ==== Sys2Proof/WellFormed.lean ====
section
/-! DEFINITION. Which command words are well formed (rules R47, R53, R54, R58). A term of `Instr` needs no check: each
operand has exactly its field's width and R51 leaves every other check to execution. What can be ill formed is a WORD:
an opcode that is not assigned, or a set bit that its format marks as must-be-zero. The check is the machine-readable
table of R58, written beside the decoder and independently of it. -/

namespace Sys2Proof

/-- A row of the opcode table (R58): a word `w` selects it when `w &&& mask = pattern`. -/
structure OpcodeRow where
  mnemonic : String
  pattern : Word
  mask : Word
  deriving DecidableEq, Repr

/-- `w` selects the row (R58). -/
def OpcodeRow.selectedBy (r : OpcodeRow) (w : Word) : Bool := w &&& r.mask == r.pattern

/-- The twelve rows of R58: the mask covers `OP` and every must-be-zero bit of the format, the pattern is `OP` in bits
63:56 and zero elsewhere. -/
def opcodeTable : List OpcodeRow :=
  [ ⟨"SETF",         0x0100000000000000#64, 0xFF00000000000000#64⟩,
    ⟨"SER.MAC",      0x1000000000000000#64, 0xFF00FFFFFFFFFFFF#64⟩,
    ⟨"SER.IP4",      0x1100000000000000#64, 0xFF00FFFFFFFFFFFF#64⟩,
    ⟨"PACK.ETH",     0x2000000000000000#64, 0xFFFFFFFFFFFFFFFF#64⟩,
    ⟨"PACK.ARPH",    0x2100000000000000#64, 0xFFFFFFFFFFFFFFFF#64⟩,
    ⟨"PACK.ARPP",    0x2200000000000000#64, 0xFFFFFFFFFFFFFFFF#64⟩,
    ⟨"PACK.IP4",     0x2300000000000000#64, 0xFFFFFFFFFFFFFFFF#64⟩,
    ⟨"PACK.UDP",     0x2400000000000000#64, 0xFFFFFFFFFFFFFFFF#64⟩,
    ⟨"CSUM.COMPUTE", 0x3000000000000000#64, 0xFF00FFFF00000000#64⟩,
    ⟨"CSUM.VERIFY",  0x3100000000000000#64, 0xFFFFFFFF00000000#64⟩,
    ⟨"FRAME.CLEAR",  0x4000000000000000#64, 0xFFFFFFFFFFFFFFFF#64⟩,
    ⟨"FRAME.PUTB",   0x4100000000000000#64, 0xFFFFFFFFFFFFFF00#64⟩ ]

/-- A command word is well formed when it selects a row of the table: its opcode is assigned (R53) and every
must-be-zero bit of its format is zero (R54). -/
def wordWellFormed (w : Word) : Bool := opcodeTable.any (fun r => r.selectedBy w)

/-- The mnemonic of an instruction (R50). -/
def Instr.mnemonic : Instr → String
  | .setf _ _ => "SETF"
  | .serMac _ => "SER.MAC"
  | .serIp4 _ => "SER.IP4"
  | .packEth => "PACK.ETH"
  | .packArph => "PACK.ARPH"
  | .packArpp => "PACK.ARPP"
  | .packIp4 => "PACK.IP4"
  | .packUdp => "PACK.UDP"
  | .csumCompute _ _ _ => "CSUM.COMPUTE"
  | .csumVerify _ _ => "CSUM.VERIFY"
  | .frameClear => "FRAME.CLEAR"
  | .framePutb _ => "FRAME.PUTB"

end Sys2Proof
end

