-- ==== Sys2Proof/Decode.lean ====
section
/-! DEFINITION. The decoder, total on 64-bit words (rule R51), and the encoder written from the same formats. -/

namespace Sys2Proof

/-- Why a word is illegal (R53, R54). Both raise `ILLEGAL_CMD`. -/
inductive IllegalWord where
  /-- `OP` is not one of the twelve opcodes (R53). -/
  | unassignedOpcode (op : BitVec 8)
  /-- `OP` is assigned but a bit its format marks must-be-zero is set (R54). -/
  | reservedBitSet (op : BitVec 8)
  deriving DecidableEq, Repr

/-- What a word decodes to (R51): a command with its operands, or illegal. -/
inductive Decoded where
  | command (i : Instr)
  | illegal (why : IllegalWord)
  deriving DecidableEq, Repr

/-- `OP`, bits 63:56 (R46). -/
def opField (w : Word) : BitVec 8 := w.extractLsb' 56 8
/-- `A`, bits 55:48 (R46). -/
def aField (w : Word) : BitVec 8 := w.extractLsb' 48 8
/-- `IMM`, bits 47:0 (R46). -/
def immField (w : Word) : BitVec 48 := w.extractLsb' 0 48
/-- Bits 47:32, must be zero in format R (R47). -/
def regionMbz (w : Word) : BitVec 16 := w.extractLsb' 32 16
/-- `LEN = IMM[31:16]` (R49). -/
def lenField (w : Word) : BitVec 16 := w.extractLsb' 16 16
/-- `BASE = IMM[15:0]` (R49). -/
def baseField (w : Word) : BitVec 16 := w.extractLsb' 0 16
/-- Bits 47:8, must be zero in format B (R47). -/
def byteMbz (w : Word) : BitVec 40 := w.extractLsb' 8 40
/-- `BYTE = IMM[7:0]` (R49). -/
def byteField (w : Word) : Byte := w.extractLsb' 0 8

/-- The command `i` if its format's must-be-zero bits are zero, else an illegal word (R54). -/
def whenZero (mbzIsZero : Bool) (w : Word) (i : Instr) : Decoded :=
  if mbzIsZero then .command i else .illegal (.reservedBitSet (opField w))

/-- Format N: no operand, `A` and `IMM` must be zero (R47). -/
def decodeN (w : Word) (i : Instr) : Decoded := whenZero (aField w == 0#8 && immField w == 0#48) w i
/-- Format F: `A` is the field id, `IMM` must be zero (R47). -/
def decodeF (w : Word) (i : BitVec 8 → Instr) : Decoded := whenZero (immField w == 0#48) w (i (aField w))
/-- Format S: `A` is the field id, `IMM` the value (R47, R48). -/
def decodeS (w : Word) : Decoded := .command (.setf (aField w) (immField w))
/-- Format R of `CSUM.COMPUTE`: `A` is the masked-word index (R47). -/
def decodeRCompute (w : Word) : Decoded :=
  whenZero (regionMbz w == 0#16) w (.csumCompute (baseField w) (lenField w) (aField w))
/-- Format R of `CSUM.VERIFY`: `A` must be zero (R47). -/
def decodeRVerify (w : Word) : Decoded :=
  whenZero (aField w == 0#8 && regionMbz w == 0#16) w (.csumVerify (baseField w) (lenField w))
/-- Format B: `A` and `IMM[47:8]` must be zero (R47). -/
def decodeB (w : Word) : Decoded := whenZero (aField w == 0#8 && byteMbz w == 0#40) w (.framePutb (byteField w))

/-- The decoder looks at `OP` first; if it is in the table it checks the must-be-zero bits of that command's format
(R51). Every other opcode selects no command (R50, R53). -/
def decode (w : Word) : Decoded :=
  if opField w = 0x01#8 then decodeS w
  else if opField w = 0x10#8 then decodeF w .serMac
  else if opField w = 0x11#8 then decodeF w .serIp4
  else if opField w = 0x20#8 then decodeN w .packEth
  else if opField w = 0x21#8 then decodeN w .packArph
  else if opField w = 0x22#8 then decodeN w .packArpp
  else if opField w = 0x23#8 then decodeN w .packIp4
  else if opField w = 0x24#8 then decodeN w .packUdp
  else if opField w = 0x30#8 then decodeRCompute w
  else if opField w = 0x31#8 then decodeRVerify w
  else if opField w = 0x40#8 then decodeN w .frameClear
  else if opField w = 0x41#8 then decodeB w
  else .illegal (.unassignedOpcode (opField w))

/-- The command word `OP ‖ A ‖ IMM` (R46). -/
def wordOf (op a : BitVec 8) (imm : BitVec 48) : Word := op ++ a ++ imm

/-- The word of an instruction (R47, R50). -/
def encode : Instr → Word
  | .setf fid val => wordOf 0x01#8 fid val
  | .serMac fid => wordOf 0x10#8 fid 0#48
  | .serIp4 fid => wordOf 0x11#8 fid 0#48
  | .packEth => wordOf 0x20#8 0#8 0#48
  | .packArph => wordOf 0x21#8 0#8 0#48
  | .packArpp => wordOf 0x22#8 0#8 0#48
  | .packIp4 => wordOf 0x23#8 0#8 0#48
  | .packUdp => wordOf 0x24#8 0#8 0#48
  | .csumCompute base len cw => wordOf 0x30#8 cw (0#16 ++ len ++ base)
  | .csumVerify base len => wordOf 0x31#8 0#8 (0#16 ++ len ++ base)
  | .frameClear => wordOf 0x40#8 0#8 0#48
  | .framePutb byte => wordOf 0x41#8 0#8 (0#40 ++ byte)

/-- The instruction the decoder reads from the number `w`, whose bit 0 is the word's least significant bit; bits above
`nbits` are zero. -/
def decodeTableWord (nbits w : Nat) : Option Instr :=
  match decode (BitVec.ofNat 64 (w % 2 ^ nbits)) with
  | .command i => some i
  | .illegal _ => none

end Sys2Proof
end

