-- ==== Sys2Proof/Config.lean ====
section
/-! DEFINITION. What an implementation fixes (rule R5) and the values the spec leaves open. A constant declared
`opaque` is a free value: nothing can be proved of it, so a statement that mentions it holds whatever it is. -/

namespace Sys2Proof

/-- The domains a raw channel is opened with (R139). -/
inductive ChannelDomain where
  | packet
  deriving DecidableEq, Repr

/-- The types a raw channel is opened with (R139). -/
inductive ChannelType where
  | raw
  | datagram
  deriving DecidableEq, Repr

/-- The protocols a raw channel is opened with (R139). -/
inductive ChannelProtocol where
  | etherAll
  | arp
  | ipv4
  deriving DecidableEq, Repr

end Sys2Proof

namespace Sys2Proof.Config

/-- The least `FB_SIZE` that R5 admits: the length of the document's end-to-end frame. -/
def fbSizeMin : Nat := 42

/-- The `FB_SIZE` that `State.reset` holds. DESIGN CHOICE, unsafe (log 1): R5 leaves the parameter open between
42 and 65535; 2048 is the value of the spec's own vectors. Every other state may hold any value. -/
def fbSizeOfReset : Fin 65536 := 2048

/-- The byte of the `n`-th free draw of the read port: a host read of `FB[a]` with `a >= FLEN` returns an unspecified
byte, each such read an independent draw (R22, U1). Free value, safe (log 5). -/
opaque freeByte : Nat → Byte

/-- The hardware-address length of a type code outside the closed set of `ARP_HTYPE`. R96 gives no row for one, and no
reachable state holds one. Free value, safe (log 8). -/
opaque hlenUnlisted : BitVec 16 → Byte

/-- The protocol-address length of a type code outside the closed set of `ARP_PTYPE`. As `hlenUnlisted` (log 8). -/
opaque plenUnlisted : BitVec 16 → Byte

/-- The number by which the kernel knows a channel's domain. N12: not stated. Free value, safe (log 20). -/
opaque domainCode : ChannelDomain → Nat

/-- The number by which the kernel knows a channel's type. N12: not stated. Free value, safe (log 20). -/
opaque typeCode : ChannelType → Nat

/-- The number by which the kernel knows a channel's protocol. N12: not stated. Free value, safe (log 20). -/
opaque protocolCode : ChannelProtocol → Nat

/-- How many bytes the protocol number takes on its way to the kernel. Not stated. Free value, safe (log 20). -/
opaque protocolOctets : Nat

end Sys2Proof.Config
end

