-- ==== Sys2Proof/Machine/State.lean ====
section
/-! DEFINITION. The state of the block as plain data (rules R12 to R25), the reasons a step can stop, and the state
after reset (rules R24, R170). -/

namespace Sys2Proof.Machine

/-- The 25 field registers by name (R12). -/
inductive FieldId where
  | ethDst | ethSrc | ethType
  | arpHtype | arpPtype | arpOper
  | arpSha | arpSpa | arpTha | arpTpa
  | ipDscp | ipEcn | ipTotlen | ipId | ipFlags | ipFrag | ipTtl | ipProto | ipCsum | ipSrc | ipDst
  | udpSport | udpDport | udpLen | udpCsum
  deriving DecidableEq, Repr

/-- The contents of the field registers (R12). `none` is UNSET, the valid bit 0; `some v` is the valid bit 1 and the
value `v` (R13: the value bits of an UNSET register cannot be observed and a model carries none). -/
structure FieldRegs where
  ethDst : Option (BitVec 48)
  ethSrc : Option (BitVec 48)
  ethType : Option (BitVec 16)
  arpHtype : Option (BitVec 16)
  arpPtype : Option (BitVec 16)
  arpOper : Option (BitVec 16)
  arpSha : Option (BitVec 48)
  arpSpa : Option (BitVec 32)
  arpTha : Option (BitVec 48)
  arpTpa : Option (BitVec 32)
  ipDscp : Option (BitVec 6)
  ipEcn : Option (BitVec 2)
  ipTotlen : Option (BitVec 16)
  ipId : Option (BitVec 16)
  ipFlags : Option (BitVec 3)
  ipFrag : Option (BitVec 13)
  ipTtl : Option (BitVec 8)
  ipProto : Option (BitVec 8)
  ipCsum : Option (BitVec 16)
  ipSrc : Option (BitVec 32)
  ipDst : Option (BitVec 32)
  udpSport : Option (BitVec 16)
  udpDport : Option (BitVec 16)
  udpLen : Option (BitVec 16)
  udpCsum : Option (BitVec 16)
  deriving DecidableEq, Repr

/-- The frame buffer `FB` (R17): (offset, byte) pairs, offsets strictly rising. An offset that is not listed holds no
value: nothing has been appended there since reset (R24 leaves the bytes of `FB` unspecified; log 4). -/
abbrev Memory := List Host.Cell

/-- What the host does between two steps (R10, R181). -/
inductive HostMove where
  /-- Issue a command word on the port `CMD[63:0]` (R45). -/
  | command (w : Word)
  /-- Apply the reset input `RST` (R170). -/
  | reset
  /-- Read `FB[a]` through the read port (R22). -/
  | read (a : BitVec 16)
  deriving DecidableEq, Repr

structure State where
  /-- The 25 field registers with their valid bits (R12, R13). -/
  regs : FieldRegs
  /-- The frame buffer (R17). -/
  fb : Memory
  /-- The fill length of the frame buffer (R18). -/
  flen : BitVec 16
  /-- The checksum result (R19). -/
  res : BitVec 16
  /-- The verify flag (R20). -/
  vok : Bool
  /-- The sticky fault flag (R21). -/
  fault : Bool
  /-- The fault code (R21). -/
  err : BitVec 4
  /-- The parameter `FB_SIZE` (R5), the same in every state of a run (R181); configuration, not state of the block
  (R25). It is held here so that every statement covers every size (log 1). -/
  fbSize : Fin 65536
  /-- Whether `RST` has been applied since power-on (R172). The model's own (log 7). -/
  wasReset : Bool
  /-- The host's moves still to come, the next first (R45). The model's own (log 2). -/
  moves : List HostMove
  /-- What the host's reads of `FB` returned, the newest first (R22). The model's own (log 6). -/
  hostReads : List (BitVec 16 × Byte)
  /-- How many free bytes the read port has drawn (U1). The model's own (log 5). -/
  draws : Nat
  deriving DecidableEq, Repr

/-- The seven fault codes of the block (R151). Raising one is a NEXT state of the machine, not a stop (R154). -/
inductive FaultCode where
  /-- `ILLEGAL_CMD`: any word, R53, R54. -/
  | illegalCmd
  /-- `BAD_FIELD`: `SETF`, `SER.MAC`, `SER.IP4`. -/
  | badField
  /-- `BAD_VALUE`: `SETF`. -/
  | badValue
  /-- `UNSET_FIELD`: `SER.*`, `PACK.*`. -/
  | unsetField
  /-- `FRAME_OVERFLOW`: `SER.*`, `PACK.*`, `FRAME.PUTB`. -/
  | frameOverflow
  /-- `ODD_LENGTH`: `CSUM.*`. -/
  | oddLength
  /-- `BAD_REGION`: `CSUM.*`. -/
  | badRegion
  deriving DecidableEq, Repr

/-- Why the machine stops: none of these is a fault of the block. -/
inductive Fault where
  /-- Raised by every command while the block has never been reset: R172, "a command issued to a never-reset block has
  no defined effect and a model gives it no step". Safe (log 7). -/
  | neverReset
  /-- Raised by `CSUM.*` when a byte of an admitted region holds no value in the model. No state that a run reaches
  raises it: below `FLEN` every byte has been appended. Safe (log 4). -/
  | noByte
  deriving DecidableEq, Repr

/-- Why an instruction has no meaning. -/
inductive Refusal where
  /-- Raised by an arm of `exec` whose instruction has no meaning yet; no arm raises it. Safe. -/
  | notModelled (mnemonic : String)
  deriving DecidableEq, Repr

/-- The outcome of a step of this machine. -/
abbrev Result := Host.Outcome State Fault Refusal

/-- The field registers after reset (R24): fifteen UNSET, ten at the document's defaults. -/
def FieldRegs.reset : FieldRegs where
  ethDst := none
  ethSrc := none
  ethType := none
  arpHtype := none
  arpPtype := none
  arpOper := none
  arpSha := none
  arpSpa := none
  arpTha := none
  arpTpa := none
  ipDscp := some 0
  ipEcn := some 0
  ipTotlen := some 20
  ipId := some 1
  ipFlags := some 0
  ipFrag := some 0
  ipTtl := some 64
  ipProto := none
  ipCsum := some 0
  ipSrc := none
  ipDst := none
  udpSport := none
  udpDport := none
  udpLen := some 8
  udpCsum := some 0

/-- The state after reset of a block whose `FB_SIZE` is `size` (R24, R170), with a host that has no move left. -/
def State.resetOfSize (size : Fin 65536) : State where
  regs := FieldRegs.reset
  fb := []
  flen := 0
  res := 0
  vok := false
  fault := false
  err := 0
  fbSize := size
  wasReset := true
  moves := []
  hostReads := []
  draws := 0

/-- The machine right after reset (R24, R170). Its `FB_SIZE` is a DESIGN CHOICE (log 1); the host's lists are empty and
the draw counter is 0 (DESIGN CHOICE, logs 2, 5, 6). -/
def State.reset : State := State.resetOfSize Config.fbSizeOfReset

end Sys2Proof.Machine
end

