-- ==== Sys2Proof/Machine/Flags.lean ====
section
/-! DEFINITION. The one flag that commands compute, `VOK` (rule R20), and the codes of `ERR` (rule R151). -/

namespace Sys2Proof.Machine

/-- `VOK <- (RES = 0xFFFF)` of `CSUM.VERIFY` (R20, R70). -/
def vokOfVerify (sum : BitVec 16) : Bool := sum == 0xFFFF#16

/-- `VOK <- 0` of `CSUM.COMPUTE` (R20, R69). -/
def vokOfCompute : Bool := false

/-- The value written to `ERR[3:0]` (R151). -/
def FaultCode.code : FaultCode → BitVec 4
  | .illegalCmd => 1#4
  | .badField => 2#4
  | .badValue => 3#4
  | .unsetField => 4#4
  | .frameOverflow => 5#4
  | .oddLength => 6#4
  | .badRegion => 7#4

end Sys2Proof.Machine
end

