-- ==== Sys2Proof/Machine/Operands.lean ====
section
/-! DEFINITION. The field-register table (rule R12), register reads and writes, and the byte forms of values
(rules R7, R82 to R84). -/

namespace Sys2Proof.Machine

/-- The kinds of field registers (R12). -/
inductive FieldKind where
  /-- A 48-bit hardware address. -/
  | mac
  /-- A 32-bit protocol address. -/
  | ip4
  /-- A selector restricted to a closed set of wire values. -/
  | sel
  /-- An unsigned integer, every value legal. -/
  | int
  deriving DecidableEq, Repr

/-- All field registers, in the order of their ids (R12). -/
def allFields : List FieldId :=
  [.ethDst, .ethSrc, .ethType, .arpHtype, .arpPtype, .arpOper, .arpSha, .arpSpa, .arpTha, .arpTpa,
   .ipDscp, .ipEcn, .ipTotlen, .ipId, .ipFlags, .ipFrag, .ipTtl, .ipProto, .ipCsum, .ipSrc, .ipDst,
   .udpSport, .udpDport, .udpLen, .udpCsum]

/-- The id column of R12. -/
def FieldId.id : FieldId → BitVec 8
  | .ethDst => 0x00#8 | .ethSrc => 0x01#8 | .ethType => 0x02#8
  | .arpHtype => 0x10#8 | .arpPtype => 0x11#8 | .arpOper => 0x12#8
  | .arpSha => 0x18#8 | .arpSpa => 0x19#8 | .arpTha => 0x1A#8 | .arpTpa => 0x1B#8
  | .ipDscp => 0x20#8 | .ipEcn => 0x21#8 | .ipTotlen => 0x22#8 | .ipId => 0x23#8 | .ipFlags => 0x24#8 | .ipFrag => 0x25#8
  | .ipTtl => 0x26#8 | .ipProto => 0x27#8 | .ipCsum => 0x28#8 | .ipSrc => 0x29#8 | .ipDst => 0x2A#8
  | .udpSport => 0x30#8 | .udpDport => 0x31#8 | .udpLen => 0x32#8 | .udpCsum => 0x33#8

/-- The width column of R12. -/
def FieldId.width : FieldId → Nat
  | .ethDst => 48 | .ethSrc => 48 | .ethType => 16
  | .arpHtype => 16 | .arpPtype => 16 | .arpOper => 16
  | .arpSha => 48 | .arpSpa => 32 | .arpTha => 48 | .arpTpa => 32
  | .ipDscp => 6 | .ipEcn => 2 | .ipTotlen => 16 | .ipId => 16 | .ipFlags => 3 | .ipFrag => 13
  | .ipTtl => 8 | .ipProto => 8 | .ipCsum => 16 | .ipSrc => 32 | .ipDst => 32
  | .udpSport => 16 | .udpDport => 16 | .udpLen => 16 | .udpCsum => 16

/-- The kind column of R12. -/
def FieldId.kind : FieldId → FieldKind
  | .ethDst => .mac | .ethSrc => .mac | .ethType => .sel
  | .arpHtype => .sel | .arpPtype => .sel | .arpOper => .sel
  | .arpSha => .mac | .arpSpa => .ip4 | .arpTha => .mac | .arpTpa => .ip4
  | .ipDscp => .int | .ipEcn => .int | .ipTotlen => .int | .ipId => .int | .ipFlags => .int | .ipFrag => .int
  | .ipTtl => .int | .ipProto => .sel | .ipCsum => .int | .ipSrc => .ip4 | .ipDst => .ip4
  | .udpSport => .int | .udpDport => .int | .udpLen => .int | .udpCsum => .int

/-- Membership of a wire value in the closed set of a selector (R12); every value of a register of another kind is
legal. -/
def FieldId.legal : FieldId → Nat → Bool
  | .ethType, v => v == 0x0800 || v == 0x86DD || v == 0x0806
  | .arpHtype, v => v == 0x0001
  | .arpPtype, v => v == 0x0800
  | .arpOper, v => v == 0x0001 || v == 0x0002
  | .ipProto, v => v == 1 || v == 6 || v == 17
  | .ethDst, _ | .ethSrc, _ | .arpSha, _ | .arpSpa, _ | .arpTha, _ | .arpTpa, _ | .ipDscp, _ | .ipEcn, _
  | .ipTotlen, _ | .ipId, _ | .ipFlags, _ | .ipFrag, _ | .ipTtl, _ | .ipCsum, _ | .ipSrc, _ | .ipDst, _
  | .udpSport, _ | .udpDport, _ | .udpLen, _ | .udpCsum, _ => true

/-- The register that a field id names, if any (R12, R49). -/
def fieldNamed (fid : BitVec 8) : Option FieldId := allFields.find? (fun f => f.id == fid)

/-- `F[f]` with its valid bit: `none` when UNSET (R8, R13). -/
def FieldRegs.get (r : FieldRegs) : (f : FieldId) → Option (BitVec f.width)
  | .ethDst => r.ethDst
  | .ethSrc => r.ethSrc
  | .ethType => r.ethType
  | .arpHtype => r.arpHtype
  | .arpPtype => r.arpPtype
  | .arpOper => r.arpOper
  | .arpSha => r.arpSha
  | .arpSpa => r.arpSpa
  | .arpTha => r.arpTha
  | .arpTpa => r.arpTpa
  | .ipDscp => r.ipDscp
  | .ipEcn => r.ipEcn
  | .ipTotlen => r.ipTotlen
  | .ipId => r.ipId
  | .ipFlags => r.ipFlags
  | .ipFrag => r.ipFrag
  | .ipTtl => r.ipTtl
  | .ipProto => r.ipProto
  | .ipCsum => r.ipCsum
  | .ipSrc => r.ipSrc
  | .ipDst => r.ipDst
  | .udpSport => r.udpSport
  | .udpDport => r.udpDport
  | .udpLen => r.udpLen
  | .udpCsum => r.udpCsum

/-- `F[f] <- v` and `V[f] <- 1` (R8, R81). -/
def FieldRegs.set (r : FieldRegs) : (f : FieldId) → BitVec f.width → FieldRegs
  | .ethDst, v => { r with ethDst := some v }
  | .ethSrc, v => { r with ethSrc := some v }
  | .ethType, v => { r with ethType := some v }
  | .arpHtype, v => { r with arpHtype := some v }
  | .arpPtype, v => { r with arpPtype := some v }
  | .arpOper, v => { r with arpOper := some v }
  | .arpSha, v => { r with arpSha := some v }
  | .arpSpa, v => { r with arpSpa := some v }
  | .arpTha, v => { r with arpTha := some v }
  | .arpTpa, v => { r with arpTpa := some v }
  | .ipDscp, v => { r with ipDscp := some v }
  | .ipEcn, v => { r with ipEcn := some v }
  | .ipTotlen, v => { r with ipTotlen := some v }
  | .ipId, v => { r with ipId := some v }
  | .ipFlags, v => { r with ipFlags := some v }
  | .ipFrag, v => { r with ipFrag := some v }
  | .ipTtl, v => { r with ipTtl := some v }
  | .ipProto, v => { r with ipProto := some v }
  | .ipCsum, v => { r with ipCsum := some v }
  | .ipSrc, v => { r with ipSrc := some v }
  | .ipDst, v => { r with ipDst := some v }
  | .udpSport, v => { r with udpSport := some v }
  | .udpDport, v => { r with udpDport := some v }
  | .udpLen, v => { r with udpLen := some v }
  | .udpCsum, v => { r with udpCsum := some v }

/-- `IMM[47:w]` is all zero: the immediate fits a register of width `w` (R48). -/
def valueFits (f : FieldId) (val : BitVec 48) : Bool := val >>> f.width == 0#48

/-- The value written to a register of width `w` is `IMM[w-1:0]` (R48). -/
def valueFor (f : FieldId) (val : BitVec 48) : BitVec f.width := val.setWidth f.width

/-- Bits `8k+7 : 8k` of a value, byte `k` counted from the least significant. -/
def byteAt {n : Nat} (v : BitVec n) (k : Nat) : Byte := v.extractLsb' (8 * k) 8

/-- `be16(v)` (R7): most significant byte first. -/
def be16 (v : BitVec 16) : List Byte := [byteAt v 1, byteAt v 0]

/-- `be32(v)` (R7). -/
def be32 (v : BitVec 32) : List Byte := [byteAt v 3, byteAt v 2, byteAt v 1, byteAt v 0]

/-- `be48(v)` (R7). -/
def be48 (v : BitVec 48) : List Byte :=
  [byteAt v 5, byteAt v 4, byteAt v 3, byteAt v 2, byteAt v 1, byteAt v 0]

/-- `mac_bytes(v)` (R83): the six octets of a hardware address in their own order. -/
def macBytes (v : BitVec 48) : List Byte := be48 v

/-- `ip4_bytes(v)` (R84): the four octets of a protocol address in their own order. -/
def ip4Bytes (v : BitVec 32) : List Byte := be32 v

/-- `mac_value([o0, ..., o5])` (R82): octet 0 is the most significant byte. -/
def macValue (o : Vector Byte 6) : BitVec 48 := o[0] ++ o[1] ++ o[2] ++ o[3] ++ o[4] ++ o[5]

/-- `ip4_value([o0, ..., o3])` (R82). -/
def ip4Value (o : Vector Byte 4) : BitVec 32 := o[0] ++ o[1] ++ o[2] ++ o[3]

end Sys2Proof.Machine
end

