-- ==== Sys2Proof/Machine/Ops.lean ====
section
/-! DEFINITION. The named operations over the frame buffer and the registers (rule R8), fault entry (rule R154), and
the frame every command runs in (rules R155, R172). -/

namespace Sys2Proof.Machine

/-- The byte listed at an offset, if any. -/
def Memory.read : Memory → Nat → Option Byte
  | [], _ => none
  | c :: m, a => if c.1 = a then some c.2 else Memory.read m a

/-- Write one byte, keeping the offsets strictly rising. -/
def Memory.write : Memory → Nat → Byte → Memory
  | [], a, b => [(a, b)]
  | c :: m, a, b =>
    if a < c.1 then (a, b) :: c :: m
    else if a = c.1 then (a, b) :: m
    else c :: Memory.write m a b

/-- `MemWrite(addr, n, s)` (R8): in increasing offset order, `s[0]` at `addr` (R38). -/
def Memory.writeBytes : Memory → Nat → List Byte → Memory
  | m, _, [] => m
  | m, a, b :: bs => Memory.writeBytes (m.write a b) (a + 1) bs

/-- `MemRead(addr, n)` (R8): lowest offset first; no value when a byte of it has none. -/
def Memory.readBytes (m : Memory) : Nat → Nat → Option (List Byte)
  | _, 0 => some []
  | a, n + 1 =>
    match m.read a, Memory.readBytes m (a + 1) n with
    | some b, some bs => some (b :: bs)
    | _, _ => none

/-- The canonical form of a memory: offsets strictly rising. An unlisted offset has no value, so no entry can equal
what it reads as. -/
abbrev Memory.wf (m : Memory) : Prop := m.Pairwise (fun p q => p.1 < q.1)

/-- Why a command does not complete: a fault of the block, or a stop of the model. -/
inductive Abandon where
  /-- `raise Fault(code)` (R8). -/
  | raise (c : FaultCode)
  /-- The model has no step. -/
  | stop (r : Fault)
  deriving DecidableEq, Repr

/-- `F[f] <- v`, `V[f] <- 1` (R81). -/
def State.setField (s : State) (f : FieldId) (v : BitVec f.width) : State := { s with regs := s.regs.set f v }

/-- The two writes of an admitted append (R8): the bytes at `FLEN`, then `FLEN <- FLEN + len(bs)`. -/
def State.appendBytes (s : State) (bs : List Byte) : State :=
  { s with fb := s.fb.writeBytes s.flen.toNat bs, flen := s.flen + BitVec.ofNat 16 bs.length }

/-- `FLEN <- 0`; the bytes of `FB` are not erased (R121). -/
def State.clearFrame (s : State) : State := { s with flen := 0#16 }

/-- `RES <- sum`, `VOK <- ok` (R69, R70). -/
def State.setResult (s : State) (sum : BitVec 16) (ok : Bool) : State := { s with res := sum, vok := ok }

/-- Fault entry (R154): `FAULT <- 1`, `ERR <- c`, nothing else changes. There is no return from it (R156). -/
def State.takeFault (s : State) (c : FaultCode) : State := { s with fault := true, err := c.code }

/-- The host's list of moves becomes `ms`. -/
def State.setMoves (s : State) (ms : List HostMove) : State := { s with moves := ms }

/-- The host has read the byte `b` at offset `a`. -/
def State.recordRead (s : State) (a : BitVec 16) (b : Byte) : State :=
  { s with hostReads := (a, b) :: s.hostReads }

/-- The read port has drawn a free byte. -/
def State.countDraw (s : State) : State := { s with draws := s.draws + 1 }

/-- The reset transition (R170): every piece of state of the block takes its value of R24; `FB_SIZE` (R181) and the
host's own lists stay (log 10). -/
def State.applyReset (s : State) : State :=
  { State.resetOfSize s.fbSize with moves := s.moves, hostReads := s.hostReads, draws := s.draws }

/-- `Need(name)` (R8): the register's value, or `UNSET_FIELD`. -/
def need {α : Type} : Option α → Except Abandon α
  | some v => .ok v
  | none => .error (.raise .unsetField)

/-- `Append(s)` (R8, R36): all or nothing. The sum is exact, as the 17-bit sum of R36 is. -/
def append (s : State) (bs : List Byte) : Except Abandon State :=
  if s.fbSize.val < s.flen.toNat + bs.length then .error (.raise .frameOverflow)
  else .ok (s.appendBytes bs)

/-- The register of kind `k` that a field id names, or `BAD_FIELD` (R55, R85, R86). -/
def fieldOfKind (k : FieldKind) (fid : BitVec 8) : Except Abandon FieldId :=
  match fieldNamed fid with
  | some f => if f.kind = k then .ok f else .error (.raise .badField)
  | none => .error (.raise .badField)

/-- The frame of every command. Before the first reset it has no step (R172); while `FAULT = 1` it is accepted and
discarded (R155); else it completes, or it faults and only `FAULT` and `ERR` change (R154). -/
def runCommand (body : State → Except Abandon State) (s : State) : Result :=
  if s.wasReset = false then .fault .neverReset
  else if s.fault = true then .next s
  else
    match body s with
    | .ok t => .next t
    | .error (.raise c) => .next (s.takeFault c)
    | .error (.stop r) => .fault r

end Sys2Proof.Machine
end

