-- ==== Sys2Proof/Machine/Address.lean ====
section
/-! DEFINITION. `SETF` (rule R81) and the address serializers `SER.MAC` (R85), `SER.IP4` (R86). -/

namespace Sys2Proof.Machine

/-- The pseudocode of `SETF` (R81): the id, then the width, then the closed set, in the order of R153. -/
def setfBody (fid : BitVec 8) (val : BitVec 48) (s : State) : Except Abandon State :=
  match fieldNamed fid with
  | none => .error (.raise .badField)
  | some f =>
    if valueFits f val = false then .error (.raise .badValue)
    else if f.legal (valueFor f val).toNat = false then .error (.raise .badValue)
    else .ok (s.setField f (valueFor f val))

/-- The octets `SER.MAC` appends, or the fault it raises before (R85). A register of kind MAC is 48 bits wide, so
`setWidth` changes nothing. -/
def serMacBytes (fid : BitVec 8) (r : FieldRegs) : Except Abandon (List Byte) := do
  let f ← fieldOfKind .mac fid
  let v ← need (r.get f)
  return macBytes (v.setWidth 48)

/-- The octets `SER.IP4` appends, or the fault it raises before (R86). A register of kind IP4 is 32 bits wide, so
`setWidth` changes nothing. -/
def serIp4Bytes (fid : BitVec 8) (r : FieldRegs) : Except Abandon (List Byte) := do
  let f ← fieldOfKind .ip4 fid
  let v ← need (r.get f)
  return ip4Bytes (v.setWidth 32)

/-- `SETF fid, val` (R81). -/
def execSetf (fid : BitVec 8) (val : BitVec 48) (s : State) : Result := runCommand (setfBody fid val) s

/-- `SER.MAC fid` (R85). -/
def execSerMac (fid : BitVec 8) (s : State) : Result := runCommand (fun s => do append s (← serMacBytes fid s.regs)) s

/-- `SER.IP4 fid` (R86). -/
def execSerIp4 (fid : BitVec 8) (s : State) : Result := runCommand (fun s => do append s (← serIp4Bytes fid s.regs)) s

end Sys2Proof.Machine
end

