-- ==== Sys2Proof/Machine/Checksum.lean ====
section
/-! DEFINITION. The Checksum Engine: the fold (rules R66, R68), `CSUM.COMPUTE` (R69) and `CSUM.VERIFY` (R70). -/

namespace Sys2Proof.Machine

/-- The 16-bit big-endian words of a byte sequence (R66). A sequence of odd length has none (R75: neither padded nor
truncated; log 17). -/
def bigEndianWords : List Byte → Option (List (BitVec 16))
  | [] => some []
  | [_] => none
  | hi :: lo :: rest => (bigEndianWords rest).map (fun ws => (hi ++ lo) :: ws)

/-- `acc <- acc + w` over the words in increasing order, 32-bit unsigned (R66). -/
def sumWords : BitVec 32 → List (BitVec 16) → BitVec 32
  | acc, [] => acc
  | acc, w :: ws => sumWords (acc + w.setWidth 32) ws

/-- One pass of the carry loop: add the upper half into the lower half (R66). -/
def carryPass (acc : BitVec 32) : BitVec 32 :=
  (acc.extractLsb' 0 16).setWidth 32 + (acc.extractLsb' 16 16).setWidth 32

/-- The carry loop: passes while the upper half is not zero (R66), at most `fuel` of them. -/
def carryLoop : Nat → BitVec 32 → BitVec 32
  | 0, acc => acc
  | fuel + 1, acc => if acc.extractLsb' 16 16 = 0#16 then acc else carryLoop fuel (carryPass acc)

/-- More passes than the carry loop ever takes: two (R67(b); DEDUCED, log 18). -/
def carryFuel : Nat := 8

/-- The folded sum of a sequence of words (R66). -/
def foldWords (ws : List (BitVec 16)) : BitVec 16 := (carryLoop carryFuel (sumWords 0#32 ws)).extractLsb' 0 16

/-- `fold(s)` (R66): the pre-complement folded sum of an even-length byte sequence. -/
def fold (s : List Byte) : Option (BitVec 16) := (bigEndianWords s).map foldWords

/-- `s` with bytes `2c` and `2c+1` replaced by the two given bytes (R68, R72). For a word outside `s` the rules give no
result; nothing is replaced then, a DESIGN CHOICE that no command reaches (log 22). -/
def replaceWord (s : List Byte) (c : Nat) (hi lo : Byte) : List Byte := (s.set (2 * c) hi).set (2 * c + 1) lo

/-- `fold_masked(s, c)` (R68): the fold with word `c` counted as zero. R68 defines it for a word inside `s` only; for
another it is the plain fold, a DESIGN CHOICE that no command reaches, since `admitWord` refuses first (log 22). -/
def foldMasked (s : List Byte) (c : Nat) : Option (BitVec 16) := fold (replaceWord s c 0#8 0#8)

/-- The region is refused: `LEN` odd, or not inside the composed frame (R37, R69, R70), tested in that order (R153).
The sum is exact, as the 17-bit sum of R37 is. -/
def admitRegion (s : State) (base len : BitVec 16) : Except Abandon Unit :=
  if len.getLsbD 0 then .error (.raise .oddLength)
  else if s.flen.toNat < base.toNat + len.toNat then .error (.raise .badRegion)
  else .ok ()

/-- Word `cw` is inside the region (R69). -/
def admitWord (len : BitVec 16) (cw : BitVec 8) : Except Abandon Unit :=
  if len.toNat < 2 * cw.toNat + 2 then .error (.raise .badRegion) else .ok ()

/-- `MemRead(BASE, LEN)` of an admitted region (R8). A byte without a value stops the model (log 4). -/
def readRegion (s : State) (base len : BitVec 16) : Except Abandon (List Byte) :=
  match s.fb.readBytes base.toNat len.toNat with
  | some bs => .ok bs
  | none => .error (.stop .noByte)

/-- A fold that has no value is one of an odd-length sequence, refused as `ODD_LENGTH` (R75). An admitted region never
has odd length. -/
def foldedSum : Option (BitVec 16) → Except Abandon (BitVec 16)
  | some sum => .ok sum
  | none => .error (.raise .oddLength)

/-- The pseudocode of `CSUM.COMPUTE` (R69). -/
def csumComputeBody (base len : BitVec 16) (cw : BitVec 8) (s : State) : Except Abandon State := do
  admitRegion s base len
  admitWord len cw
  let bs ← readRegion s base len
  let sum ← foldedSum (foldMasked bs cw.toNat)
  return s.setResult sum vokOfCompute

/-- The pseudocode of `CSUM.VERIFY` (R70). -/
def csumVerifyBody (base len : BitVec 16) (s : State) : Except Abandon State := do
  admitRegion s base len
  let bs ← readRegion s base len
  let sum ← foldedSum (fold bs)
  return s.setResult sum (vokOfVerify sum)

/-- `CSUM.COMPUTE base, len, cw` (R69). -/
def execCsumCompute (base len : BitVec 16) (cw : BitVec 8) (s : State) : Result :=
  runCommand (csumComputeBody base len cw) s

/-- `CSUM.VERIFY base, len` (R70). -/
def execCsumVerify (base len : BitVec 16) (s : State) : Result := runCommand (csumVerifyBody base len) s

end Sys2Proof.Machine
end

