-- ==== Sys2Proof/Machine/Frame.lean ====
section
/-! DEFINITION. Frame composition: `FRAME.CLEAR` (rule R121) and `FRAME.PUTB` (R122). -/

namespace Sys2Proof.Machine

/-- `FRAME.CLEAR` (R121): it raises no fault of its own. -/
def execFrameClear (s : State) : Result := runCommand (fun s => .ok s.clearFrame) s

/-- `FRAME.PUTB byte` (R122). -/
def execFramePutb (byte : Byte) (s : State) : Result := runCommand (fun s => append s [byte]) s

end Sys2Proof.Machine
end

