-- ==== Sys2Proof/Machine/Ipv4Udp.lean ====
section
/-! DEFINITION. The internet and transport packers: `PACK.IP4` (rules R106 to R110), `PACK.UDP` (R112 to R114). What
all packers share is R90. Neither computes a checksum or a length (R109, R110, R114). -/

namespace Sys2Proof.Machine

/-- The constant version 4 of the internet header (R14, R106). -/
def ipVersion : BitVec 4 := 4#4

/-- The constant header length 5 of the internet header (R14, R106). -/
def ipHeaderLength : BitVec 4 := 5#4

/-- `ip4h_bytes(...)` (R106): 20 bytes. The first-named field of each packed pair takes the more significant bits; for
DSCP/ECN and flags/fragment offset that is the spec's own inference (R108, D32; log 11). -/
def ip4hBytes (dscp : BitVec 6) (ecn : BitVec 2) (totlen id : BitVec 16) (flags : BitVec 3) (frag : BitVec 13)
    (ttl proto : BitVec 8) (csum : BitVec 16) (src dst : BitVec 32) : List Byte :=
  [ipVersion ++ ipHeaderLength] ++ [dscp ++ ecn] ++ be16 totlen ++ be16 id ++ be16 (flags ++ frag)
    ++ [ttl] ++ [proto] ++ be16 csum ++ ip4Bytes src ++ ip4Bytes dst

/-- `udp_bytes(sport, dport, length, csum)` (R112): 8 bytes. -/
def udpBytes (sport dport length csum : BitVec 16) : List Byte :=
  be16 sport ++ be16 dport ++ be16 length ++ be16 csum

/-- The bytes of the internet header the registers hold, or `UNSET_FIELD` (R107). The eight defaulted registers are set
from reset on; R90(b) says what an UNSET one would do (log 9). -/
def ip4Header (r : FieldRegs) : Except Abandon (List Byte) := do
  let p ← need r.ipProto
  let s ← need r.ipSrc
  let d ← need r.ipDst
  let dscp ← need r.ipDscp
  let ecn ← need r.ipEcn
  let totlen ← need r.ipTotlen
  let id ← need r.ipId
  let flags ← need r.ipFlags
  let frag ← need r.ipFrag
  let ttl ← need r.ipTtl
  let csum ← need r.ipCsum
  return ip4hBytes dscp ecn totlen id flags frag ttl p csum s d

/-- The bytes of the UDP header the registers hold, or `UNSET_FIELD` (R113; log 9 for the two defaulted ones). -/
def udpHeader (r : FieldRegs) : Except Abandon (List Byte) := do
  let a ← need r.udpSport
  let b ← need r.udpDport
  let length ← need r.udpLen
  let csum ← need r.udpCsum
  return udpBytes a b length csum

/-- `PACK.IP4` (R107). -/
def execPackIp4 (s : State) : Result := runCommand (fun s => do append s (← ip4Header s.regs)) s

/-- `PACK.UDP` (R113). -/
def execPackUdp (s : State) : Result := runCommand (fun s => do append s (← udpHeader s.regs)) s

end Sys2Proof.Machine
end

