-- ==== Sys2Proof/Machine/LinkArp.lean ====
section
/-! DEFINITION. The link and address-resolution packers: `PACK.ETH` (rules R91, R92), `PACK.ARPH` (R95 to R97),
`PACK.ARPP` (R100, R101). What all packers share is R90. -/

namespace Sys2Proof.Machine

/-- `eth_bytes(dst, src, type)` (R91): 14 bytes. -/
def ethBytes (dst src : BitVec 48) (type : BitVec 16) : List Byte := macBytes dst ++ macBytes src ++ be16 type

/-- `hlen` by lookup from `ARP_HTYPE` (R96). No reachable state holds another code; its length is free (log 8). -/
def hlen (htype : BitVec 16) : Byte := if htype = 0x0001#16 then 6#8 else Config.hlenUnlisted htype

/-- `plen` by lookup from `ARP_PTYPE` (R96). No reachable state holds another code; its length is free (log 8). -/
def plen (ptype : BitVec 16) : Byte := if ptype = 0x0800#16 then 4#8 else Config.plenUnlisted ptype

/-- `arph_bytes(htype, ptype, oper)` (R95): 8 bytes. -/
def arphBytes (htype ptype oper : BitVec 16) : List Byte :=
  be16 htype ++ be16 ptype ++ [hlen htype] ++ [plen ptype] ++ be16 oper

/-- `arpp_bytes(sha, spa, tha, tpa)` (R100): 20 bytes. -/
def arppBytes (sha : BitVec 48) (spa : BitVec 32) (tha : BitVec 48) (tpa : BitVec 32) : List Byte :=
  macBytes sha ++ ip4Bytes spa ++ macBytes tha ++ ip4Bytes tpa

/-- The bytes of the link header the registers hold, or `UNSET_FIELD` (R92). -/
def ethHeader (r : FieldRegs) : Except Abandon (List Byte) := do
  let d ← need r.ethDst
  let s ← need r.ethSrc
  let t ← need r.ethType
  return ethBytes d s t

/-- The bytes of the resolution header the registers hold, or `UNSET_FIELD` (R97). -/
def arphHeader (r : FieldRegs) : Except Abandon (List Byte) := do
  let h ← need r.arpHtype
  let p ← need r.arpPtype
  let o ← need r.arpOper
  return arphBytes h p o

/-- The bytes of the resolution payload the registers hold, or `UNSET_FIELD` (R101). -/
def arppPayload (r : FieldRegs) : Except Abandon (List Byte) := do
  let a ← need r.arpSha
  let b ← need r.arpSpa
  let c ← need r.arpTha
  let d ← need r.arpTpa
  return arppBytes a b c d

/-- `PACK.ETH` (R92). -/
def execPackEth (s : State) : Result := runCommand (fun s => do append s (← ethHeader s.regs)) s

/-- `PACK.ARPH` (R97). -/
def execPackArph (s : State) : Result := runCommand (fun s => do append s (← arphHeader s.regs)) s

/-- `PACK.ARPP` (R101). -/
def execPackArpp (s : State) : Result := runCommand (fun s => do append s (← arppPayload s.regs)) s

end Sys2Proof.Machine
end

