-- ==== Sys2Proof/Machine/Dispatch.lean ====
section
/-! DEFINITION. The dispatch of a command to its meaning, one arm per constructor of Instr (rule R50). -/

namespace Sys2Proof.Machine
open Sys2Proof

def exec (i : Instr) (s : State) : Host.Outcome State Fault Refusal :=
  match i with
  | .setf fid val => Sys2Proof.Machine.execSetf fid val s
  | .serMac fid => Sys2Proof.Machine.execSerMac fid s
  | .serIp4 fid => Sys2Proof.Machine.execSerIp4 fid s
  | .packEth => Sys2Proof.Machine.execPackEth s
  | .packArph => Sys2Proof.Machine.execPackArph s
  | .packArpp => Sys2Proof.Machine.execPackArpp s
  | .packIp4 => Sys2Proof.Machine.execPackIp4 s
  | .packUdp => Sys2Proof.Machine.execPackUdp s
  | .csumCompute base len cw => Sys2Proof.Machine.execCsumCompute base len cw s
  | .csumVerify base len => Sys2Proof.Machine.execCsumVerify base len s
  | .frameClear => Sys2Proof.Machine.execFrameClear s
  | .framePutb byte => Sys2Proof.Machine.execFramePutb byte s

end Sys2Proof.Machine
end

