-- ==== Sys2Proof/Machine/Port.lean ====
section
/-! DEFINITION. The host's side of the block: the command port (rule R45), the reset input (R170), the observation
ports (R22), and what a run leaves (R125). -/

namespace Sys2Proof.Machine

/-- An illegal word faults with `ILLEGAL_CMD` and has no other effect (R54). -/
def illegalCommand (s : State) : Result := runCommand (fun _ => .error (.raise .illegalCmd)) s

/-- One command word, accepted whole (R44, R45): decode it, then execute it. -/
def issueWord (w : Word) (s : State) : Result :=
  match decode w with
  | .command i => exec i s
  | .illegal _ => illegalCommand s

/-- The byte that the read port shows for the offset `a`, when it is specified: the byte last appended there, for an
offset below `FLEN` (R22). Before the first reset no byte is specified (R172). -/
def specifiedByte (s : State) (a : BitVec 16) : Option Byte :=
  if s.wasReset = true ∧ a.toNat < s.flen.toNat then s.fb.read a.toNat else none

/-- The host reads `FB[a]`: the specified byte, or a free draw (R22, U1). Reading changes no state of the block (R22);
the host's record and the draw counter are the model's own. -/
def readPort (a : BitVec 16) (s : State) : State :=
  match specifiedByte s a with
  | some b => s.recordRead a b
  | none => (s.recordRead a (Config.freeByte s.draws)).countDraw

/-- One move of the host (R181). -/
def hostMove : HostMove → State → Result
  | .command w, s => issueWord w s
  | .reset, s => .next s.applyReset
  | .read a, s => .next (readPort a s)

/-- One step: the host's next move. With no move left the block is idle between commands (R165; log 3). -/
def takeMove (s : State) : Result :=
  match s.moves with
  | [] => .next s
  | m :: rest => hostMove m (s.setMoves rest)

/-- `s` with the word `w` at the front of the host's moves. -/
def issueFirst (s : State) (w : Word) : State := s.setMoves (.command w :: s.moves)

/-- What the host can observe between commands at any time (R22). -/
structure Ports where
  res : BitVec 16
  vok : Bool
  fault : Bool
  err : BitVec 4
  flen : BitVec 16
  deriving DecidableEq, Repr

/-- The observation ports (R22). -/
def ports (s : State) : Ports := ⟨s.res, s.vok, s.fault, s.err, s.flen⟩

/-- The composed frame `FB[0 .. FLEN-1]` (R18, R120). It has a value in every state that a run reaches. -/
def frame (s : State) : Option (List Byte) := s.fb.readBytes 0 s.flen.toNat

/-- The result of a run: the tuple of R125. -/
structure RunResult where
  ports : Ports
  frame : Option (List Byte)
  deriving DecidableEq, Repr

/-- The result of a run that ends in `s` (R125). -/
def runResult (s : State) : RunResult := ⟨ports s, frame s⟩

/-- A list of commands, one after another, stopping where one has no step (R42, R123). -/
def execAll : List Instr → State → Result
  | [], s => .next s
  | i :: is, s =>
    match exec i s with
    | .next t => execAll is t
    | .fault r => .fault r
    | .refused r => .refused r

end Sys2Proof.Machine
end

