-- ==== Sys2Proof/Machine/Step.lean ====
section
/-! DEFINITION. The step of the machine and where a command comes from (rules R10, R45). -/

namespace Sys2Proof.Machine

/-- A step takes the host's next move (R10, R181): a command word, a reset, or a read of the frame buffer. -/
def step (s : State) : Host.Outcome State Fault Refusal := takeMove s

/-- `s` with the `nbits`-bit number `w` as the command word the host issues next (R45; log 2). -/
def State.withFetchWord (s : State) (nbits w : Nat) : State := issueFirst s (BitVec.ofNat 64 (w % 2 ^ nbits))

end Sys2Proof.Machine
end

