-- ==== Sys2Proof/Machine/Assembler.lean ====
section
/-! DEFINITION. The host's assembler: text forms of addresses (rules R131 to R135, R137) and pseudo-instructions
(rule R57). The block never sees text (R130); nothing in `step` uses this file. -/

namespace Sys2Proof.Machine

/-- A text, one character at a time. -/
abbrev Text := List Char

/-- The value of a hexadecimal digit of either case (R137: `0-9a-fA-F`). -/
def hexDigit (c : Char) : Option Nat :=
  if '0'.toNat ≤ c.toNat ∧ c.toNat ≤ '9'.toNat then some (c.toNat - '0'.toNat)
  else if 'a'.toNat ≤ c.toNat ∧ c.toNat ≤ 'f'.toNat then some (c.toNat - 'a'.toNat + 10)
  else if 'A'.toNat ≤ c.toNat ∧ c.toNat ≤ 'F'.toNat then some (c.toNat - 'A'.toNat + 10)
  else none

/-- The value of a decimal digit. -/
def decDigit (c : Char) : Option Nat :=
  if '0'.toNat ≤ c.toNat ∧ c.toNat ≤ '9'.toNat then some (c.toNat - '0'.toNat) else none

/-- An octet of exactly two hexadecimal digits (R137). -/
def hexOctet (hi lo : Char) : Option Byte :=
  match hexDigit hi, hexDigit lo with
  | some h, some l => some (BitVec.ofNat 8 (16 * h + l))
  | _, _ => none

/-- `HardwareAddress::parse(text)` in the narrowest reading (R131, R137; log 13): exactly 17 characters, six groups of
two hexadecimal digits, the five separators all `:` or all `-`. `none` is `AddressFormatError` (R134). -/
def parseMac : Text → Option (Vector Byte 6)
  | [a, a', s1, b, b', s2, c, c', s3, d, d', s4, e, e', s5, f, f'] =>
    if (s1 = ':' ∨ s1 = '-') ∧ s2 = s1 ∧ s3 = s1 ∧ s4 = s1 ∧ s5 = s1 then do
      let o0 ← hexOctet a a'
      let o1 ← hexOctet b b'
      let o2 ← hexOctet c c'
      let o3 ← hexOctet d d'
      let o4 ← hexOctet e e'
      let o5 ← hexOctet f f'
      return #v[o0, o1, o2, o3, o4, o5]
    else none
  | _ => none

/-- The character of a hexadecimal digit. Which case the canonical form has is not stated (R132, N10): the caller says
(log 15). -/
def hexChar (upper : Bool) (n : Nat) : Char :=
  if n < 10 then Char.ofNat ('0'.toNat + n)
  else if upper then Char.ofNat ('A'.toNat + (n - 10))
  else Char.ofNat ('a'.toNat + (n - 10))

/-- The two digits of an octet. -/
def hexPair (upper : Bool) (o : Byte) : Text := [hexChar upper (o.toNat / 16), hexChar upper (o.toNat % 16)]

/-- The canonical text form of a hardware address: colon-separated hexadecimal octets (R131, R132). -/
def formatMac (upper : Bool) (o : Vector Byte 6) : Text :=
  hexPair upper o[0] ++ ':' :: hexPair upper o[1] ++ ':' :: hexPair upper o[2] ++ ':' :: hexPair upper o[3]
    ++ ':' :: hexPair upper o[4] ++ ':' :: hexPair upper o[5]

/-- Cut a text at every `.`. -/
def splitDots : Text → List Text
  | [] => [[]]
  | c :: cs =>
    if c = '.' then [] :: splitDots cs
    else
      match splitDots cs with
      | [] => [[c]]
      | g :: gs => (c :: g) :: gs

/-- The number that decimal digits spell, continuing from `acc`. -/
def decNumber : Nat → Text → Option Nat
  | acc, [] => some acc
  | acc, c :: cs =>
    match decDigit c with
    | some d => decNumber (10 * acc + d) cs
    | none => none

/-- An octet of one to three decimal digits with a value from 0 to 255, without sign or space (R133, R137). -/
def decOctet (t : Text) : Option Byte :=
  if 1 ≤ t.length ∧ t.length ≤ 3 then
    match decNumber 0 t with
    | some n => if n ≤ 255 then some (BitVec.ofNat 8 n) else none
    | none => none
  else none

/-- `ProtocolAddress::parse(text)` in the narrowest reading (R133, R137; log 13). `none` is `AddressFormatError`. -/
def parseIp4 (t : Text) : Option (Vector Byte 4) :=
  match splitDots t with
  | [a, b, c, d] => do
    let o0 ← decOctet a
    let o1 ← decOctet b
    let o2 ← decOctet c
    let o3 ← decOctet d
    return #v[o0, o1, o2, o3]
  | _ => none

/-- An octet of a protocol address written in decimal without leading zeros. DESIGN CHOICE: N10 says that the text form
to which a protocol address re-serializes is not stated (log 14). -/
def decText (o : Byte) : Text :=
  let n := o.toNat
  let digit := fun k => Char.ofNat ('0'.toNat + k)
  if n < 10 then [digit n]
  else if n < 100 then [digit (n / 10), digit (n % 10)]
  else [digit (n / 100), digit (n / 10 % 10), digit (n % 10)]

/-- A dotted-decimal form of a protocol address (R133). That it is the one written here, the shortest, is a DESIGN
CHOICE: N10 leaves the form open (log 14). -/
def formatIp4 (o : Vector Byte 4) : Text :=
  decText o[0] ++ '.' :: decText o[1] ++ '.' :: decText o[2] ++ '.' :: decText o[3]

/-- The pseudo-instructions of R57. A field operand is an id; a value operand is any 48-bit immediate, since a symbolic
selector name is only another spelling of its wire value. -/
inductive Pseudo where
  | setMac (fid : BitVec 8) (text : Text)
  | setIp (fid : BitVec 8) (text : Text)
  | link (dst src : Text) (type : BitVec 48)
  | arpNew (htype ptype oper : BitVec 48)
  | arpRequest (htype ptype : BitVec 48)
  | arpReply (htype ptype : BitVec 48)
  | arpPayload (sha spa tha tpa : Text)
  | ipv4 (src dst : Text) (proto : BitVec 48)
  | udp (sport dport : BitVec 48)
  deriving DecidableEq, Repr

/-- `SETMAC fid, "text"` is `SETF fid, mac_value(text)` (R57, R135). -/
def setMac (fid : BitVec 8) (t : Text) : Option Instr :=
  (parseMac t).map (fun o => .setf fid (macValue o))

/-- `SETIP fid, "text"` is `SETF fid, ip4_value(text)` (R57, R135). -/
def setIp (fid : BitVec 8) (t : Text) : Option Instr :=
  (parseIp4 t).map (fun o => .setf fid ((ip4Value o).setWidth 48))

/-- The expansion of a pseudo-instruction (R57). `none` is an assembly-time `AddressFormatError`: no command is emitted
for that pseudo-instruction (R57), not even for its texts that do parse (R134: construction of the owning header does
not proceed). -/
def expand : Pseudo → Option (List Instr)
  | .setMac fid t => do return [← setMac fid t]
  | .setIp fid t => do return [← setIp fid t]
  | .link dst src type => do
    return [← setMac FieldId.ethDst.id dst, ← setMac FieldId.ethSrc.id src, .setf FieldId.ethType.id type]
  | .arpNew htype ptype oper =>
    some [.setf FieldId.arpHtype.id htype, .setf FieldId.arpPtype.id ptype, .setf FieldId.arpOper.id oper]
  | .arpRequest htype ptype =>
    some [.setf FieldId.arpHtype.id htype, .setf FieldId.arpPtype.id ptype, .setf FieldId.arpOper.id 1]
  | .arpReply htype ptype =>
    some [.setf FieldId.arpHtype.id htype, .setf FieldId.arpPtype.id ptype, .setf FieldId.arpOper.id 2]
  | .arpPayload sha spa tha tpa => do
    return [← setMac FieldId.arpSha.id sha, ← setIp FieldId.arpSpa.id spa,
            ← setMac FieldId.arpTha.id tha, ← setIp FieldId.arpTpa.id tpa]
  | .ipv4 src dst proto => do
    return [← setIp FieldId.ipSrc.id src, ← setIp FieldId.ipDst.id dst, .setf FieldId.ipProto.id proto]
  | .udp sport dport => some [.setf FieldId.udpSport.id sport, .setf FieldId.udpDport.id dport]

end Sys2Proof.Machine
end

