-- ==== Sys2Proof/Machine/Channel.lean ====
section
/-! DEFINITION. The raw transmission channel of the host (rules R138 to R145) and what the kernel sees of it. It is an
operating-system object and no part of the block (R4, R25); nothing in `step` uses this file. What the operating system
answers is an argument of each operation (log 20). -/

namespace Sys2Proof.Machine

/-- A `RawChannel` value (R138): its selectors and, while it is open, the handle it owns. `none` is Closed. -/
structure Channel where
  domain : ChannelDomain
  type : ChannelType
  protocol : ChannelProtocol
  handle : Option Nat
  deriving DecidableEq, Repr

/-- What the kernel is asked for by an open (R139): the three selectors as it knows them. -/
structure OpenRequest where
  domain : Nat
  type : Nat
  /-- The protocol in network byte order, most significant byte first. -/
  protocol : List Byte
  deriving DecidableEq, Repr

/-- What the kernel receives by a send (R141). -/
structure Transmission where
  handle : Nat
  /-- The destination, encoded in the frame itself and given by no parameter. -/
  destination : List Byte
  /-- The bytes the kernel took. -/
  bytes : List Byte
  deriving DecidableEq, Repr

/-- The channels of the host and the kernel's side of them. -/
structure ChannelWorld where
  /-- The `RawChannel` values that exist, each under the name the host knows it by. -/
  channels : List (Nat × Channel)
  /-- The handles that have been granted and not given back, the newest first. -/
  live : List Nat
  /-- The handles that have been given back, the newest first. -/
  released : List Nat
  /-- How many handles have been granted. The next handle and the next name are this number (log 20). -/
  granted : Nat
  /-- What the kernel has been asked for, the newest first. -/
  requests : List OpenRequest
  /-- What the kernel has received, the newest first. -/
  written : List Transmission
  deriving DecidableEq, Repr

/-- No channel has been opened yet. -/
def ChannelWorld.empty : ChannelWorld := ⟨[], [], [], 0, [], []⟩

/-- The typed errors of a channel (R142, R144). -/
inductive ChannelError where
  /-- `ChannelOpenError` with the operating system's error code (R139, R144). -/
  | openFailed (osCode : Nat)
  /-- `TransmissionError` with the operating system's error code (R144). -/
  | sendFailed (osCode : Nat)
  /-- `TransmissionError` of a partial write, which is a failure and is not resumed (R144). -/
  | partialWrite (written : Nat)
  /-- A send after close (R142, R145). -/
  | closed
  deriving DecidableEq, Repr

/-- What the operating system answers to an open (R139, R143). -/
inductive OpenAnswer where
  /-- The handle is granted and the channel is constructed. -/
  | granted
  /-- No handle is granted. -/
  | refused (osCode : Nat)
  /-- A handle is granted and the rest of the construction fails. -/
  | abandoned (osCode : Nat)
  deriving DecidableEq, Repr

/-- What the operating system answers to a send (R141, R144). -/
inductive SendAnswer where
  /-- It took so many bytes of the frame. -/
  | wrote (n : Nat)
  /-- It took none and answers an error code. -/
  | failed (osCode : Nat)
  deriving DecidableEq, Repr

/-- The `n` low bytes of `v`, most significant first: network byte order. -/
def networkBytes : Nat → Nat → List Byte
  | 0, _ => []
  | n + 1, v => BitVec.ofNat 8 (v / 256 ^ n) :: networkBytes n v

/-- The request of an open (R139). -/
def openRequest (domain : ChannelDomain) (type : ChannelType) (protocol : ChannelProtocol) : OpenRequest where
  domain := Config.domainCode domain
  type := Config.typeCode type
  protocol := networkBytes Config.protocolOctets (Config.protocolCode protocol)

/-- The frame's own destination address (R141): its first six octets, those of a link header (R91; DEDUCED, log 20). -/
def frameDestination (bytes : List Byte) : List Byte := bytes.take 6

/-- The channel of a name, if it exists. -/
def ChannelWorld.channel (w : ChannelWorld) (name : Nat) : Option Channel := w.channels.lookup name

/-- The handle that the channel of a name owns; none when it is closed or does not exist. -/
def ChannelWorld.handleOf (w : ChannelWorld) (name : Nat) : Option Nat := (w.channel name).bind (·.handle)

/-- The kernel has been asked. -/
def ChannelWorld.ask (w : ChannelWorld) (r : OpenRequest) : ChannelWorld := { w with requests := r :: w.requests }

/-- The kernel grants the next handle. -/
def ChannelWorld.grant (w : ChannelWorld) : ChannelWorld :=
  { w with live := w.granted :: w.live, granted := w.granted + 1 }

/-- The handle is given back to the kernel. -/
def ChannelWorld.giveBack (w : ChannelWorld) (h : Nat) : ChannelWorld :=
  { w with live := w.live.erase h, released := h :: w.released }

/-- A channel comes into being. -/
def ChannelWorld.construct (w : ChannelWorld) (name : Nat) (c : Channel) : ChannelWorld :=
  { w with channels := (name, c) :: w.channels }

/-- The channel of a name owns no handle any more. -/
def ChannelWorld.disown (w : ChannelWorld) (name : Nat) : ChannelWorld :=
  { w with channels := w.channels.map (fun e => if e.1 = name then (e.1, { e.2 with handle := none }) else e) }

/-- The channel of a name is gone. -/
def ChannelWorld.forget (w : ChannelWorld) (name : Nat) : ChannelWorld :=
  { w with channels := w.channels.filter (fun e => e.1 != name) }

/-- The kernel receives bytes of a frame. -/
def ChannelWorld.transmit (w : ChannelWorld) (t : Transmission) : ChannelWorld := { w with written := t :: w.written }

/-- `open(domain, type, protocol)` (R139): the name of the new channel, or an error and no channel. A handle granted to
a construction that then fails is given back at once (R143). -/
def openChannel (domain : ChannelDomain) (type : ChannelType) (protocol : ChannelProtocol) (answer : OpenAnswer)
    (w : ChannelWorld) : Except ChannelError Nat × ChannelWorld :=
  let asked := w.ask (openRequest domain type protocol)
  match answer with
  | .granted => (.ok w.granted, asked.grant.construct w.granted ⟨domain, type, protocol, some w.granted⟩)
  | .refused code => (.error (.openFailed code), asked)
  | .abandoned code => (.error (.openFailed code), asked.grant.giveBack w.granted)

/-- `send(frame)` (R141): the number of bytes written, or an error (R144). A closed channel asks the kernel nothing
(R142). An answer of more bytes than the frame has is treated as a partial write (log 20). -/
def sendFrame (name : Nat) (bytes : List Byte) (answer : SendAnswer) (w : ChannelWorld) :
    Except ChannelError Nat × ChannelWorld :=
  match w.handleOf name with
  | none => (.error .closed, w)
  | some h =>
    match answer with
    | .failed code => (.error (.sendFailed code), w)
    | .wrote n =>
      (if n = bytes.length then .ok n else .error (.partialWrite n),
        w.transmit ⟨h, frameDestination bytes, bytes.take n⟩)

/-- `close()` (R142): the handle, if the channel owns one, is given back; closing again does nothing. -/
def closeChannel (name : Nat) (w : ChannelWorld) : ChannelWorld :=
  match w.handleOf name with
  | none => w
  | some h => (w.disown name).giveBack h

/-- The end of a channel's life: `close()` is implicit on destruction (R138, R142). -/
def dropChannel (name : Nat) (w : ChannelWorld) : ChannelWorld := (closeChannel name w).forget name

/-- The sends of a scope, one after another. A send that fails is surfaced and not retried (R144). That the scope then
ends, its later frames not tried, is a DESIGN CHOICE: what the caller does with them is not stated (log 23). -/
def sendEach (name : Nat) : List (List Byte × SendAnswer) → ChannelWorld → Except ChannelError (List Nat) × ChannelWorld
  | [], w => (.ok [], w)
  | (bytes, answer) :: rest, w =>
    match sendFrame name bytes answer w with
    | (.error e, w') => (.error e, w')
    | (.ok n, w') =>
      match sendEach name rest w' with
      | (.error e, w'') => (.error e, w'')
      | (.ok ns, w'') => (.ok (n :: ns), w'')

/-- Scoped acquisition (R143): open a channel, send in it, and destroy it on every path out of the scope. That a failed
send is such a path is the model's choice (log 23). -/
def scopedChannel (domain : ChannelDomain) (type : ChannelType) (protocol : ChannelProtocol) (answer : OpenAnswer)
    (sends : List (List Byte × SendAnswer)) (w : ChannelWorld) : Except ChannelError (List Nat) × ChannelWorld :=
  match openChannel domain type protocol answer w with
  | (.error e, w') => (.error e, w')
  | (.ok name, w') => ((sendEach name sends w').1, dropChannel name (sendEach name sends w').2)

/-- What can happen to the channels of a host. There is no cloning and no receive path (R142, R143). -/
inductive ChannelMove where
  | openNew (domain : ChannelDomain) (type : ChannelType) (protocol : ChannelProtocol) (answer : OpenAnswer)
  | send (name : Nat) (bytes : List Byte) (answer : SendAnswer)
  | close (name : Nat)
  | drop (name : Nat)
  deriving DecidableEq, Repr

/-- One move. -/
def channelMove : ChannelMove → ChannelWorld → ChannelWorld
  | .openNew domain type protocol answer, w => (openChannel domain type protocol answer w).2
  | .send name bytes answer, w => (sendFrame name bytes answer w).2
  | .close name, w => closeChannel name w
  | .drop name, w => dropChannel name w

end Sys2Proof.Machine
end

