-- ==== Sys2Proof/Machine/HostFlow.lean ====
section
/-! DEFINITION. The host's side of the control flow (rule R147): build the headers, compose the frame (rule R123), take
it (rules R125, R181), send it (rule R141). Nothing in `step` uses this file. -/

namespace Sys2Proof.Machine

/-- The commands of `compose([s1, ..., sn], payload)` (R123): `FRAME.CLEAR`, the command that produces each segment in
order, one `FRAME.PUTB` per payload byte. -/
def composeCommands (segments : List Instr) (payload : List Byte) : List Instr :=
  .frameClear :: (segments ++ payload.map .framePutb)

/-- The expansions of a list of pseudo-instructions, in order; `none` when a text of one is malformed. R57 and R134
withhold only that pseudo-instruction's commands and its header; that the other headers' commands are dropped with them
is a DESIGN CHOICE (log 21). -/
def expandAll : List Pseudo → Option (List Instr)
  | [] => some []
  | p :: ps =>
    match expand p, expandAll ps with
    | some is, some rest => some (is ++ rest)
    | _, _ => none

/-- The frame as the host takes it at the end of its list: `FB[0 .. FLEN-1]`, after a check that `FAULT = 0` (R125,
R181). -/
def takeFrame (s : State) : Option (List Byte) := if s.fault = true then none else frame s

/-- Why a flow ends without a number of bytes written. -/
inductive FlowError where
  /-- `AddressFormatError` of a header's text (R134): no command of the flow is issued (DESIGN CHOICE, log 21). -/
  | addressFormat
  /-- The block has no step (R172). -/
  | noStep
  /-- There is no frame to send: a command has faulted (R125, R181). -/
  | noFrame
  /-- The channel's error (R144). -/
  | channel (e : ChannelError)
  deriving DecidableEq, Repr

/-- The host takes the frame and passes it to the raw channel of a name (R125, R147). -/
def sendComposed (s : State) (name : Nat) (answer : SendAnswer) (w : ChannelWorld) :
    Except FlowError Nat × ChannelWorld :=
  match takeFrame s with
  | none => (.error .noFrame, w)
  | some bytes =>
    match sendFrame name bytes answer w with
    | (.ok n, w') => (.ok n, w')
    | (.error e, w') => (.error (.channel e), w')

/-- The control flow of R147: the `SETF` commands of each header group, the composition in frame order, the send. It
answers the number of bytes written or an error, the block's state, and the channels. -/
def composeAndSend (headers : List Pseudo) (segments : List Instr) (payload : List Byte) (name : Nat)
    (answer : SendAnswer) (s : State) (w : ChannelWorld) : Except FlowError Nat × State × ChannelWorld :=
  match expandAll headers with
  | none => (.error .addressFormat, s, w)
  | some sets =>
    match execAll (sets ++ composeCommands segments payload) s with
    | .next t => ((sendComposed t name answer w).1, t, (sendComposed t name answer w).2)
    | .fault _ => (.error .noStep, s, w)
    | .refused _ => (.error .noStep, s, w)

end Sys2Proof.Machine
end

