-- ==== Sys2Proof/Safety.lean ====
section
/-! DEFINITION. The terms that claims use: a block ready for a command, what an append changes, what each appending
command appends, and the invariant of the machine. -/

namespace Sys2Proof

/-- The appending commands (R17, R30). -/
def Instr.appends : Instr → Bool
  | .serMac _ | .serIp4 _ | .packEth | .packArph | .packArpp | .packIp4 | .packUdp | .framePutb _ => true
  | .setf _ _ | .csumCompute _ _ _ | .csumVerify _ _ | .frameClear => false

end Sys2Proof

namespace Sys2Proof.Machine

/-- The block has been reset and no fault has happened since: a command is executed (R155, R172). -/
def Ready (s : State) : Prop := s.wasReset = true ∧ s.fault = false

/-- `t` is `s` with the bytes `bs` appended to the frame and nothing else changed: the bytes stand at `FLEN` in order,
`FLEN` has grown by their number, every other byte of `FB` reads as before. -/
def Appended (s t : State) (bs : List Byte) : Prop :=
  t.flen.toNat = s.flen.toNat + bs.length
  ∧ (∀ k (h : k < bs.length), t.fb.read (s.flen.toNat + k) = some bs[k])
  ∧ (∀ a, a < s.flen.toNat ∨ s.flen.toNat + bs.length ≤ a → t.fb.read a = s.fb.read a)
  ∧ t = { s with fb := t.fb, flen := t.flen }

/-- The bytes a command appends to the frame, a function of the field registers alone (R16, R40, R90), or the fault it
raises before its append. A command that is no appending command appends no byte. -/
def headerBytes : Instr → FieldRegs → Except Abandon (List Byte)
  | .serMac fid, r => serMacBytes fid r
  | .serIp4 fid, r => serIp4Bytes fid r
  | .packEth, r => ethHeader r
  | .packArph, r => arphHeader r
  | .packArpp, r => arppPayload r
  | .packIp4, r => ip4Header r
  | .packUdp, r => udpHeader r
  | .framePutb byte, _ => .ok [byte]
  | .setf _ _, _ | .csumCompute _ _ _, _ | .csumVerify _ _, _ | .frameClear, _ => .ok []

/-- The exact sum of the 16-bit big-endian words of an even-length byte sequence, an unbounded natural (`S` of R67). -/
def wordSum : List Byte → Nat
  | hi :: lo :: rest => 256 * hi.toNat + lo.toNat + wordSum rest
  | _ => 0

/-- The ones-complement fold of an exact sum in closed form (R67(c)). -/
def closedFold (total : Nat) : Nat := if total = 0 then 0 else (total - 1) % 65535 + 1

/-- The longest byte sequence whose 32-bit sum cannot wrap: 65537 words (R67(a)). -/
def maxFoldBytes : Nat := 131074

/-- The state of the block is the one of R24; `FB` is unspecified, so that no offset has a specified byte. -/
structure AfterReset (t : State) : Prop where
  link : t.regs.ethDst = none ∧ t.regs.ethSrc = none ∧ t.regs.ethType = none
  resolution : t.regs.arpHtype = none ∧ t.regs.arpPtype = none ∧ t.regs.arpOper = none
  payload : t.regs.arpSha = none ∧ t.regs.arpSpa = none ∧ t.regs.arpTha = none ∧ t.regs.arpTpa = none
  internetUnset : t.regs.ipProto = none ∧ t.regs.ipSrc = none ∧ t.regs.ipDst = none
  internetZero : t.regs.ipDscp = some 0 ∧ t.regs.ipEcn = some 0 ∧ t.regs.ipFlags = some 0 ∧ t.regs.ipFrag = some 0
    ∧ t.regs.ipCsum = some 0
  internetSet : t.regs.ipTotlen = some 0x0014 ∧ t.regs.ipId = some 0x0001 ∧ t.regs.ipTtl = some 0x40
  transportUnset : t.regs.udpSport = none ∧ t.regs.udpDport = none
  transportSet : t.regs.udpLen = some 0x0008 ∧ t.regs.udpCsum = some 0
  frameEmpty : t.flen = 0
  bytes : ∀ a, specifiedByte t a = none
  result : t.res = 0x0000 ∧ t.vok = false
  noFault : t.fault = false ∧ t.err = 0
  ready : t.wasReset = true

/-- Every register that holds a value holds a legal one (R12, R81). -/
def FieldRegs.Legal (r : FieldRegs) : Prop := ∀ f v, r.get f = some v → f.legal v.toNat = true

/-- The ten registers with a default are set (R13, R24). -/
def FieldRegs.DefaultsSet (r : FieldRegs) : Prop :=
  r.ipDscp.isSome ∧ r.ipEcn.isSome ∧ r.ipTotlen.isSome ∧ r.ipId.isSome ∧ r.ipFlags.isSome ∧ r.ipFrag.isSome
  ∧ r.ipTtl.isSome ∧ r.ipCsum.isSome ∧ r.udpLen.isSome ∧ r.udpCsum.isSome

/-- What holds in every state that a run from reset reaches. -/
structure Inv (s : State) : Prop where
  /-- The block has been reset (R172). -/
  wasReset : s.wasReset = true
  /-- `FB_SIZE` is one that R5 admits. -/
  size : Config.fbSizeMin ≤ s.fbSize.val
  /-- `FLEN <= FB_SIZE` (R18). -/
  flenInBuffer : s.flen.toNat ≤ s.fbSize.val
  /-- The memory is in its canonical form. -/
  canonical : s.fb.wf
  /-- `FB` has no offset at or above `FB_SIZE` (R17). -/
  inBuffer : ∀ c ∈ s.fb, c.1 < s.fbSize.val
  /-- Every byte below `FLEN` has been appended (R18). -/
  written : ∀ a, a < s.flen.toNat → (s.fb.read a).isSome
  /-- A selector holds a member of its closed set (R81). -/
  legal : s.regs.Legal
  /-- The defaulted registers hold a value (R13). -/
  defaults : s.regs.DefaultsSet
  /-- `ERR` is 0 exactly when no fault has happened since reset (R21). -/
  errOfFault : s.err = 0 ↔ s.fault = false
  /-- Codes 8 to 15 are never written (R151). -/
  errRange : s.err.toNat ≤ 7
  /-- `VOK` says only that `RES` is 0xFFFF (R20, R73). -/
  vokMeans : s.vok = true → s.res = 0xFFFF

/-- What holds of the channels of a host at all times: a handle has one owner, and is given back once (R138, R143). -/
structure ChannelInv (w : ChannelWorld) : Prop where
  /-- No two channels have one name. -/
  names : (w.channels.map (·.1)).Nodup
  /-- The handle that an open channel owns is its own number, so that no two channels share one, and it is live. -/
  owned : ∀ e ∈ w.channels, ∀ h, e.2.handle = some h → h = e.1 ∧ h ∈ w.live
  /-- A handle that is live has an owner: none has leaked. -/
  owner : ∀ h ∈ w.live, ∃ e ∈ w.channels, e.2.handle = some h
  liveOnce : w.live.Nodup
  /-- A handle is given back at most once. -/
  releasedOnce : w.released.Nodup
  notBoth : ∀ h ∈ w.released, h ∉ w.live
  /-- A handle that was granted is live or was given back, and no other handle is. -/
  granted : ∀ h, h < w.granted ↔ h ∈ w.live ∨ h ∈ w.released
  namesGranted : ∀ e ∈ w.channels, e.1 < w.granted

end Sys2Proof.Machine
end

