-- ==== Sys2Proof/Certificates/Slice0/Obligations.lean ====
section
/-! DEFINITION. The statements for the provers, from the numbered rules of the spec. A statement whose docstring says
"derived" rests on a rule that the spec itself marks as an inference, on several rules at once, or on a choice of the
model's that its docstring names. -/

open Sys2Proof Sys2Proof.Machine

/-! ### Encoding -/

/-- Derived from R46, R47, R49, R50, R51: no bit of an encoding is dropped. -/
def Obligations.DecodeOfEncode : Prop := ∀ i : Instr, decode (encode i) = .command i

/-- Derived from R46, R47, R51: each legal word has one meaning. -/
def Obligations.EncodeOfDecode : Prop := ∀ (w : Word) (i : Instr), decode w = .command i → encode i = w

/-- Derived from R51, R53, R54, R58: the decoder and the machine-readable table agree on which words are commands, and
on which command. -/
def Obligations.CommandsAreTheTableRows : Prop :=
  ∀ w : Word, (wordWellFormed w = true ↔ ∃ i, decode w = .command i)
    ∧ ∀ i, decode w = .command i → ∃ r ∈ opcodeTable, r.selectedBy w = true ∧ r.mnemonic = i.mnemonic

/-- Derived from R58: no word selects two rows. -/
def Obligations.OpcodeRowsAreDisjoint : Prop :=
  ∀ (w : Word), ∀ r ∈ opcodeTable, ∀ q ∈ opcodeTable, r.selectedBy w = true → q.selectedBy w = true → r = q

/-- Derived from R50 and the words of `95_test_vectors.md` section 3.1: a sanity statement on one word per family. -/
def Obligations.SampleWordsDecode : Prop :=
  decode 0x0118AABBCCDDEEFF = .command (.setf 0x18 0xAABBCCDDEEFF)
  ∧ decode 0x1001000000000000 = .command (.serMac 0x01)
  ∧ decode 0x1129000000000000 = .command (.serIp4 0x29)
  ∧ decode 0x2100000000000000 = .command .packArph
  ∧ decode 0x2300000000000000 = .command .packIp4
  ∧ decode 0x300500000014000E = .command (.csumCompute 14 20 5)
  ∧ decode 0x31000000FFFE0000 = .command (.csumVerify 0 65534)
  ∧ decode 0x4000000000000000 = .command .frameClear
  ∧ decode 0x4100000000000068 = .command (.framePutb 0x68)

/-! ### The step -/

/-- Derived from R10, R42, R44, R45: a step with a command word at the front of the host's moves takes the word off and
executes the command it decodes to. The host's list in State is the model's own (log 2). -/
def Obligations.StepRunsTheDecodedCommand : Prop :=
  ∀ (s : State) (w : Word) (rest : List HostMove) (i : Instr),
    s.moves = .command w :: rest → decode w = .command i → step s = exec i { s with moves := rest }

/-- R53, R54: an unassigned opcode or a set must-be-zero bit faults with `ILLEGAL_CMD`, code 1, and has no other
effect. The first part says which words those are: the opcode first, then the must-be-zero bits of its format (R47). -/
def Obligations.IllegalWordsFault : Prop :=
  ∀ (w : Word),
    (let op := w.extractLsb' 56 8
     let a := w.extractLsb' 48 8
     let imm := w.extractLsb' 0 48
     (op ∉ [0x01#8, 0x10#8, 0x11#8, 0x20#8, 0x21#8, 0x22#8, 0x23#8, 0x24#8, 0x30#8, 0x31#8, 0x40#8, 0x41#8]
      ∨ op ∈ [0x20#8, 0x21#8, 0x22#8, 0x23#8, 0x24#8, 0x40#8] ∧ (a ≠ 0 ∨ imm ≠ 0)
      ∨ op ∈ [0x10#8, 0x11#8] ∧ imm ≠ 0
      ∨ op = 0x30#8 ∧ w.extractLsb' 32 16 ≠ 0
      ∨ op = 0x31#8 ∧ (a ≠ 0 ∨ w.extractLsb' 32 16 ≠ 0)
      ∨ op = 0x41#8 ∧ (a ≠ 0 ∨ w.extractLsb' 8 40 ≠ 0))) →
    ∀ (s : State) (rest : List HostMove), Ready s → s.moves = .command w :: rest →
      step s = .next { s with moves := rest, fault := true, err := 1 }

/-- Derived from R24, R25, R170, R181: what the reset transition leaves, whatever the state before, faulted or not. The
buffer size is fixed for a run (R25, R181). That the host's list goes on after the reset, and that its record of reads
and the draw counter stay, is the model's choice (logs 2 and 10). -/
def Obligations.ResetTransitionLeavesResetState : Prop :=
  ∀ (s : State) (rest : List HostMove), s.moves = .reset :: rest →
    ∃ t, step s = .next t ∧ AfterReset t ∧ t.fbSize = s.fbSize
      ∧ t.moves = rest ∧ t.hostReads = s.hostReads ∧ t.draws = s.draws

/-- R24: the model's reset state is the state after reset, for every `FB_SIZE`. -/
def Obligations.ResetStateIsAfterReset : Prop := ∀ size, AfterReset (State.resetOfSize size)

/-- Derived from R5, R24: the invariant holds at reset for every `FB_SIZE` that R5 admits; the size that `State.reset`
holds is the model's choice (log 1). -/
def Obligations.InvariantHoldsAtReset : Prop :=
  Inv State.reset ∧ ∀ size : Fin 65536, 42 ≤ size.val → Inv (State.resetOfSize size)

/-- Derived from R172: a command issued to a never-reset block has no step; reset gives it one. The flag that remembers
it is the model's own (log 7). -/
def Obligations.NeverResetBlockHasNoStep : Prop :=
  ∀ (s : State) (w : Word) (rest : List HostMove), s.wasReset = false → s.moves = .command w :: rest →
    step s = .fault .neverReset

/-- Derived from R22, U1: a read of an offset below `FLEN` returns the byte last appended there; at or above it, an unspecified byte
(the free value of log 5); no state of the block changes. The host's record of its reads is the model's own (log 6). -/
def Obligations.ReadPortShowsTheFrame : Prop :=
  ∀ (s : State) (a : BitVec 16) (rest : List HostMove), s.moves = .read a :: rest → s.wasReset = true →
    (∀ b, a.toNat < s.flen.toNat → s.fb.read a.toNat = some b →
      step s = .next { s with moves := rest, hostReads := (a, b) :: s.hostReads })
    ∧ (s.flen.toNat ≤ a.toNat →
      step s = .next { s with moves := rest, hostReads := (a, Config.freeByte s.draws) :: s.hostReads
                              draws := s.draws + 1 })

/-! ### The field-register table -/

/-- R12: names, ids, widths, kinds, reset states and closed sets of the 25 field registers, in the order of the table;
every other id names no register. -/
def Obligations.FieldTableIsTheSpecs : Prop :=
  allFields
    = [.ethDst, .ethSrc, .ethType, .arpHtype, .arpPtype, .arpOper, .arpSha, .arpSpa, .arpTha, .arpTpa,
       .ipDscp, .ipEcn, .ipTotlen, .ipId, .ipFlags, .ipFrag, .ipTtl, .ipProto, .ipCsum, .ipSrc, .ipDst,
       .udpSport, .udpDport, .udpLen, .udpCsum]
  ∧ allFields.map (fun f => (f.id, f.width, f.kind))
    = [(0x00, 48, .mac), (0x01, 48, .mac), (0x02, 16, .sel),
       (0x10, 16, .sel), (0x11, 16, .sel), (0x12, 16, .sel),
       (0x18, 48, .mac), (0x19, 32, .ip4), (0x1A, 48, .mac), (0x1B, 32, .ip4),
       (0x20, 6, .int), (0x21, 2, .int), (0x22, 16, .int), (0x23, 16, .int), (0x24, 3, .int), (0x25, 13, .int),
       (0x26, 8, .int), (0x27, 8, .sel), (0x28, 16, .int), (0x29, 32, .ip4), (0x2A, 32, .ip4),
       (0x30, 16, .int), (0x31, 16, .int), (0x32, 16, .int), (0x33, 16, .int)]
  ∧ allFields.map (fun f => (State.reset.regs.get f).map BitVec.toNat)
    = [none, none, none, none, none, none, none, none, none, none,
       some 0, some 0, some 20, some 1, some 0, some 0, some 64, none, some 0, none, none,
       none, none, some 8, some 0]
  ∧ (∀ fid f, fieldNamed fid = some f ↔ f ∈ allFields ∧ f.id = fid)
  ∧ (∀ v, FieldId.legal .ethType v = true ↔ v = 0x0800 ∨ v = 0x86DD ∨ v = 0x0806)
  ∧ (∀ v, FieldId.legal .arpHtype v = true ↔ v = 0x0001)
  ∧ (∀ v, FieldId.legal .arpPtype v = true ↔ v = 0x0800)
  ∧ (∀ v, FieldId.legal .arpOper v = true ↔ v = 0x0001 ∨ v = 0x0002)
  ∧ (∀ v, FieldId.legal .ipProto v = true ↔ v = 1 ∨ v = 6 ∨ v = 17)
  ∧ (∀ f : FieldId, f.kind ≠ .sel → ∀ v, f.legal v = true)

/-! ### The commands -/

/-- R81: the word of `SETF`; it completes when the id names a register, the value fits and is legal, and then writes
that register, its valid bit, and nothing else; else `BAD_FIELD` (2) before `BAD_VALUE` (3), changing nothing else. -/
def Obligations.SetfWritesOneField : Prop :=
  (∀ fid val, encode (.setf fid val) = 0x01#8 ++ fid ++ val)
  ∧ ∀ (s : State) (fid : BitVec 8) (val : BitVec 48), Ready s →
    ((∀ f : FieldId, f.id ≠ fid) → exec (.setf fid val) s = .next { s with fault := true, err := 2 })
    ∧ ∀ f : FieldId, f.id = fid →
      (2 ^ f.width ≤ val.toNat → exec (.setf fid val) s = .next { s with fault := true, err := 3 })
      ∧ ∀ v : BitVec f.width, v.toNat = val.toNat →
        (f.legal val.toNat = false → exec (.setf fid val) s = .next { s with fault := true, err := 3 })
        ∧ (f.legal val.toNat = true → ∃ t, exec (.setf fid val) s = .next t ∧ t.regs.get f = some v
            ∧ (∀ g, g ≠ f → t.regs.get g = s.regs.get g) ∧ t = { s with regs := t.regs })

/-- R85: the word of `SER.MAC`; it appends the six octets of the register, most significant first; `BAD_FIELD`, then
`UNSET_FIELD`, then `FRAME_OVERFLOW`, each changing nothing else. -/
def Obligations.SerMacAppendsOctets : Prop :=
  (∀ fid, encode (.serMac fid) = 0x10#8 ++ fid ++ 0#48)
  ∧ ∀ (s : State) (fid : BitVec 8), Ready s →
    (fid ∉ [0x00#8, 0x01#8, 0x18#8, 0x1A#8] → exec (.serMac fid) s = .next { s with fault := true, err := 2 })
    ∧ ∀ reg, (fid, reg) ∈ [(0x00#8, s.regs.ethDst), (0x01#8, s.regs.ethSrc), (0x18#8, s.regs.arpSha),
          (0x1A#8, s.regs.arpTha)] →
      (reg = none → exec (.serMac fid) s = .next { s with fault := true, err := 4 })
      ∧ ∀ v, reg = some v →
        (s.fbSize.val < s.flen.toNat + 6 → exec (.serMac fid) s = .next { s with fault := true, err := 5 })
        ∧ (s.flen.toNat + 6 ≤ s.fbSize.val → ∃ t, exec (.serMac fid) s = .next t
            ∧ Appended s t [v.extractLsb' 40 8, v.extractLsb' 32 8, v.extractLsb' 24 8, v.extractLsb' 16 8,
                v.extractLsb' 8 8, v.extractLsb' 0 8])

/-- R86: the word of `SER.IP4`; it appends the four octets of the register, most significant first; `BAD_FIELD`, then
`UNSET_FIELD`, then `FRAME_OVERFLOW`, each changing nothing else. -/
def Obligations.SerIp4AppendsOctets : Prop :=
  (∀ fid, encode (.serIp4 fid) = 0x11#8 ++ fid ++ 0#48)
  ∧ ∀ (s : State) (fid : BitVec 8), Ready s →
    (fid ∉ [0x19#8, 0x1B#8, 0x29#8, 0x2A#8] → exec (.serIp4 fid) s = .next { s with fault := true, err := 2 })
    ∧ ∀ reg, (fid, reg) ∈ [(0x19#8, s.regs.arpSpa), (0x1B#8, s.regs.arpTpa), (0x29#8, s.regs.ipSrc),
          (0x2A#8, s.regs.ipDst)] →
      (reg = none → exec (.serIp4 fid) s = .next { s with fault := true, err := 4 })
      ∧ ∀ v, reg = some v →
        (s.fbSize.val < s.flen.toNat + 4 → exec (.serIp4 fid) s = .next { s with fault := true, err := 5 })
        ∧ (s.flen.toNat + 4 ≤ s.fbSize.val → ∃ t, exec (.serIp4 fid) s = .next t
            ∧ Appended s t [v.extractLsb' 24 8, v.extractLsb' 16 8, v.extractLsb' 8 8, v.extractLsb' 0 8])

/-- R91, R92: the word of `PACK.ETH`; it appends the 14 bytes of the link header; `UNSET_FIELD`, then
`FRAME_OVERFLOW`, each changing nothing else. -/
def Obligations.PackEthAppendsLinkHeader : Prop :=
  encode .packEth = 0x2000000000000000
  ∧ ∀ s : State, Ready s →
    (s.regs.ethDst = none ∨ s.regs.ethSrc = none ∨ s.regs.ethType = none →
      exec .packEth s = .next { s with fault := true, err := 4 })
    ∧ ∀ d c t, s.regs.ethDst = some d → s.regs.ethSrc = some c → s.regs.ethType = some t →
      (s.fbSize.val < s.flen.toNat + 14 → exec .packEth s = .next { s with fault := true, err := 5 })
      ∧ (s.flen.toNat + 14 ≤ s.fbSize.val → ∃ u, exec .packEth s = .next u
          ∧ Appended s u [d.extractLsb' 40 8, d.extractLsb' 32 8, d.extractLsb' 24 8, d.extractLsb' 16 8,
              d.extractLsb' 8 8, d.extractLsb' 0 8, c.extractLsb' 40 8, c.extractLsb' 32 8, c.extractLsb' 24 8,
              c.extractLsb' 16 8, c.extractLsb' 8 8, c.extractLsb' 0 8, t.extractLsb' 8 8, t.extractLsb' 0 8])

/-- Derived from R95, R96, R97: the word of `PACK.ARPH`; it appends the 8 bytes of the resolution header, with the two
length bytes looked up from the type codes as R96 says, whatever the header's registers hold; `UNSET_FIELD`, then
`FRAME_OVERFLOW`, each changing nothing else. For a type code that R96 gives no length, which no reachable state holds,
no rule says what happens: that the command completes there, with a free length byte, is the model's choice (DESIGN
CHOICE, log 8). -/
def Obligations.PackArphAppendsResolutionHeader : Prop :=
  encode .packArph = 0x2100000000000000
  ∧ ∀ s : State, Ready s →
    (s.regs.arpHtype = none ∨ s.regs.arpPtype = none ∨ s.regs.arpOper = none →
      exec .packArph s = .next { s with fault := true, err := 4 })
    ∧ ∀ h p o, s.regs.arpHtype = some h → s.regs.arpPtype = some p → s.regs.arpOper = some o →
      (s.fbSize.val < s.flen.toNat + 8 → exec .packArph s = .next { s with fault := true, err := 5 })
      ∧ (s.flen.toNat + 8 ≤ s.fbSize.val → ∃ u hl pl, exec .packArph s = .next u
          ∧ (h = 0x0001 → hl = 6) ∧ (p = 0x0800 → pl = 4)
          ∧ Appended s u [h.extractLsb' 8 8, h.extractLsb' 0 8, p.extractLsb' 8 8, p.extractLsb' 0 8, hl, pl,
              o.extractLsb' 8 8, o.extractLsb' 0 8])

/-- R100, R101: the word of `PACK.ARPP`; it appends the 20 bytes of the resolution payload; `UNSET_FIELD`, then
`FRAME_OVERFLOW`, each changing nothing else. -/
def Obligations.PackArppAppendsResolutionPayload : Prop :=
  encode .packArpp = 0x2200000000000000
  ∧ ∀ s : State, Ready s →
    (s.regs.arpSha = none ∨ s.regs.arpSpa = none ∨ s.regs.arpTha = none ∨ s.regs.arpTpa = none →
      exec .packArpp s = .next { s with fault := true, err := 4 })
    ∧ ∀ a b c d, s.regs.arpSha = some a → s.regs.arpSpa = some b → s.regs.arpTha = some c →
      s.regs.arpTpa = some d →
      (s.fbSize.val < s.flen.toNat + 20 → exec .packArpp s = .next { s with fault := true, err := 5 })
      ∧ (s.flen.toNat + 20 ≤ s.fbSize.val → ∃ u, exec .packArpp s = .next u
          ∧ Appended s u [a.extractLsb' 40 8, a.extractLsb' 32 8, a.extractLsb' 24 8, a.extractLsb' 16 8,
              a.extractLsb' 8 8, a.extractLsb' 0 8,
              b.extractLsb' 24 8, b.extractLsb' 16 8, b.extractLsb' 8 8, b.extractLsb' 0 8,
              c.extractLsb' 40 8, c.extractLsb' 32 8, c.extractLsb' 24 8, c.extractLsb' 16 8,
              c.extractLsb' 8 8, c.extractLsb' 0 8,
              d.extractLsb' 24 8, d.extractLsb' 16 8, d.extractLsb' 8 8, d.extractLsb' 0 8])

/-- Derived from R106, R107, R109, R110: the word of `PACK.IP4`; it appends the 20 bytes of the internet header as the
registers hold them, 0x45 first, no checksum and no length computed; `UNSET_FIELD`, then `FRAME_OVERFLOW`, each
changing nothing else. That DSCP and the flags take the high bits of their bytes is the spec's own inference (R108,
D32; log 11). -/
def Obligations.PackIp4AppendsInternetHeader : Prop :=
  encode .packIp4 = 0x2300000000000000
  ∧ ∀ s : State, Ready s →
    (s.regs.ipProto = none ∨ s.regs.ipSrc = none ∨ s.regs.ipDst = none →
      exec .packIp4 s = .next { s with fault := true, err := 4 })
    ∧ ∀ dscp ecn totlen id flags frag ttl proto csum src dst,
      s.regs.ipDscp = some dscp → s.regs.ipEcn = some ecn → s.regs.ipTotlen = some totlen →
      s.regs.ipId = some id → s.regs.ipFlags = some flags → s.regs.ipFrag = some frag → s.regs.ipTtl = some ttl →
      s.regs.ipProto = some proto → s.regs.ipCsum = some csum → s.regs.ipSrc = some src →
      s.regs.ipDst = some dst →
      (s.fbSize.val < s.flen.toNat + 20 → exec .packIp4 s = .next { s with fault := true, err := 5 })
      ∧ (s.flen.toNat + 20 ≤ s.fbSize.val → ∃ u, exec .packIp4 s = .next u
          ∧ Appended s u [0x45, BitVec.ofNat 8 (4 * dscp.toNat + ecn.toNat),
              totlen.extractLsb' 8 8, totlen.extractLsb' 0 8, id.extractLsb' 8 8, id.extractLsb' 0 8,
              BitVec.ofNat 8 (32 * flags.toNat + frag.toNat / 256), BitVec.ofNat 8 (frag.toNat % 256),
              ttl, proto, csum.extractLsb' 8 8, csum.extractLsb' 0 8,
              src.extractLsb' 24 8, src.extractLsb' 16 8, src.extractLsb' 8 8, src.extractLsb' 0 8,
              dst.extractLsb' 24 8, dst.extractLsb' 16 8, dst.extractLsb' 8 8, dst.extractLsb' 0 8])

/-- R112, R113: the word of `PACK.UDP`; it appends the 8 bytes of the UDP header as the registers hold them;
`UNSET_FIELD`, then `FRAME_OVERFLOW`, each changing nothing else. -/
def Obligations.PackUdpAppendsUdpHeader : Prop :=
  encode .packUdp = 0x2400000000000000
  ∧ ∀ s : State, Ready s →
    (s.regs.udpSport = none ∨ s.regs.udpDport = none →
      exec .packUdp s = .next { s with fault := true, err := 4 })
    ∧ ∀ a b l c, s.regs.udpSport = some a → s.regs.udpDport = some b → s.regs.udpLen = some l →
      s.regs.udpCsum = some c →
      (s.fbSize.val < s.flen.toNat + 8 → exec .packUdp s = .next { s with fault := true, err := 5 })
      ∧ (s.flen.toNat + 8 ≤ s.fbSize.val → ∃ u, exec .packUdp s = .next u
          ∧ Appended s u [a.extractLsb' 8 8, a.extractLsb' 0 8, b.extractLsb' 8 8, b.extractLsb' 0 8,
              l.extractLsb' 8 8, l.extractLsb' 0 8, c.extractLsb' 8 8, c.extractLsb' 0 8])

/-- R69: the word of `CSUM.COMPUTE`; on an admitted region `RES` becomes the fold with word `cw` counted as zero (its two
bytes, `2 * cw` and `2 * cw + 1` from the start of the region, are zero, every other byte is the region's) and `VOK` is
cleared, nothing else changes; `ODD_LENGTH` (6) before `BAD_REGION` (7), on which `RES` and `VOK` keep their
values. -/
def Obligations.CsumComputeFoldsMasked : Prop :=
  (∀ base len cw, encode (.csumCompute base len cw) = 0x30#8 ++ cw ++ 0#16 ++ len ++ base)
  ∧ ∀ (s : State) (base len : BitVec 16) (cw : BitVec 8), Ready s →
    (len.toNat % 2 = 1 → exec (.csumCompute base len cw) s = .next { s with fault := true, err := 6 })
    ∧ (len.toNat % 2 = 0 → s.flen.toNat < base.toNat + len.toNat ∨ len.toNat < 2 * cw.toNat + 2 →
        exec (.csumCompute base len cw) s = .next { s with fault := true, err := 7 })
    ∧ (len.toNat % 2 = 0 → base.toNat + len.toNat ≤ s.flen.toNat → 2 * cw.toNat + 2 ≤ len.toNat →
        ∀ bs : List Byte, bs.length = len.toNat →
          (∀ k (h : k < bs.length), s.fb.read (base.toNat + k) = some bs[k]) →
          ∃ sum masked, foldMasked bs cw.toNat = some sum ∧ fold masked = some sum ∧ masked.length = bs.length
            ∧ (∀ k, k < bs.length →
                masked[k]? = if k = 2 * cw.toNat ∨ k = 2 * cw.toNat + 1 then some 0 else bs[k]?)
            ∧ exec (.csumCompute base len cw) s = .next { s with res := sum, vok := false })

/-- R70: the word of `CSUM.VERIFY`; on an admitted region `RES` becomes the fold and `VOK` is set exactly when it is
0xFFFF, nothing else changes; `ODD_LENGTH` (6) before `BAD_REGION` (7). -/
def Obligations.CsumVerifyFolds : Prop :=
  (∀ base len, encode (.csumVerify base len) = 0x31#8 ++ 0#8 ++ 0#16 ++ len ++ base)
  ∧ ∀ (s : State) (base len : BitVec 16), Ready s →
    (len.toNat % 2 = 1 → exec (.csumVerify base len) s = .next { s with fault := true, err := 6 })
    ∧ (len.toNat % 2 = 0 → s.flen.toNat < base.toNat + len.toNat →
        exec (.csumVerify base len) s = .next { s with fault := true, err := 7 })
    ∧ (len.toNat % 2 = 0 → base.toNat + len.toNat ≤ s.flen.toNat →
        ∀ bs : List Byte, bs.length = len.toNat →
          (∀ k (h : k < bs.length), s.fb.read (base.toNat + k) = some bs[k]) →
          ∃ sum, fold bs = some sum
            ∧ exec (.csumVerify base len) s = .next { s with res := sum, vok := decide (sum = 0xFFFF) })

/-- R121: the word of `FRAME.CLEAR`; `FLEN` becomes 0, the bytes of `FB` are not erased but none is specified to an
observer any more, nothing else changes, and it raises no fault; while `FAULT = 1` it is discarded and clears neither `FAULT` nor `ERR`. -/
def Obligations.FrameClearEmptiesTheFrame : Prop :=
  encode .frameClear = 0x4000000000000000
  ∧ (∀ s : State, Ready s → exec .frameClear s = .next { s with flen := 0 }
      ∧ ∀ a, specifiedByte { s with flen := 0 } a = none)
  ∧ ∀ s : State, s.wasReset = true → s.fault = true → exec .frameClear s = .next s

/-- R122: the word of `FRAME.PUTB`; it appends the byte, or faults with `FRAME_OVERFLOW` when the buffer is full,
changing nothing else. -/
def Obligations.FramePutbAppendsOneByte : Prop :=
  (∀ byte, encode (.framePutb byte) = 0x41#8 ++ 0#48 ++ byte)
  ∧ ∀ (s : State) (byte : Byte), Ready s →
    (s.flen.toNat + 1 ≤ s.fbSize.val → ∃ t, exec (.framePutb byte) s = .next t ∧ Appended s t [byte])
    ∧ (s.fbSize.val < s.flen.toNat + 1 → exec (.framePutb byte) s = .next { s with fault := true, err := 5 })

/-! ### States that no run reaches -/

/-- Derived: a packer with a defaulted register UNSET, which no run leaves so (the invariant `Inv` says it), faults
with `UNSET_FIELD`, as R90(b) says of any register a packer reads. That reading is the model's choice (log 9). -/
def Obligations.UnsetDefaultedRegisterFaults : Prop :=
  ∀ s : State, Ready s →
    (s.regs.ipDscp = none ∨ s.regs.ipEcn = none ∨ s.regs.ipTotlen = none ∨ s.regs.ipId = none ∨ s.regs.ipFlags = none
        ∨ s.regs.ipFrag = none ∨ s.regs.ipTtl = none ∨ s.regs.ipCsum = none →
      exec .packIp4 s = .next { s with fault := true, err := 4 })
    ∧ (s.regs.udpLen = none ∨ s.regs.udpCsum = none → exec .packUdp s = .next { s with fault := true, err := 4 })

/-- Derived from R24 and the model's choice of log 4: R24 leaves the bytes of `FB` unspecified at reset, and no rule says
what a checksum over a byte that was never appended gives. That such a command stops the model under the name `noByte`
is that choice alone; no reachable state meets it. -/
def Obligations.RegionWithoutAByteStops : Prop :=
  ∀ (s : State) (base len : BitVec 16) (cw : BitVec 8), Ready s → len.toNat % 2 = 0 →
    base.toNat + len.toNat ≤ s.flen.toNat → (∃ k, k < len.toNat ∧ s.fb.read (base.toNat + k) = none) →
    exec (.csumVerify base len) s = .fault .noByte
    ∧ (2 * cw.toNat + 2 ≤ len.toNat → exec (.csumCompute base len cw) s = .fault .noByte)

/-! ### Faults -/

/-- R154: a faulting command changes only `FAULT` and `ERR`, whichever command it is. -/
def Obligations.FaultingCommandChangesOnlyFaultAndErr : Prop :=
  ∀ (i : Instr) (s t : State), Ready s → exec i s = .next t → t.fault = true →
    ∃ c : BitVec 4, t = { s with fault := true, err := c } ∧ 1 ≤ c.toNat ∧ c.toNat ≤ 7

/-- Derived from R151, the column "raised by": the codes each command can raise. -/
def Obligations.EachCommandRaisesItsOwnCodes : Prop :=
  ∀ (i : Instr) (s t : State), Ready s → exec i s = .next t → t.fault = true →
    match i with
    | .setf _ _ => t.err = 2 ∨ t.err = 3
    | .serMac _ | .serIp4 _ => t.err = 2 ∨ t.err = 4 ∨ t.err = 5
    | .packEth | .packArph | .packArpp | .packIp4 | .packUdp => t.err = 4 ∨ t.err = 5
    | .csumCompute _ _ _ | .csumVerify _ _ => t.err = 6 ∨ t.err = 7
    | .framePutb _ => t.err = 5
    | .frameClear => False

/-- R155: while `FAULT = 1` every word the host issues, legal or not, is accepted and discarded, `ERR` and the frame
stay, and the frame stays readable. -/
def Obligations.FaultedBlockDiscardsEveryWord : Prop :=
  ∀ (s : State), s.wasReset = true → s.fault = true →
    (∀ i, exec i s = .next s)
    ∧ (∀ (w : Word) (rest : List HostMove), s.moves = .command w :: rest → step s = .next { s with moves := rest })
    ∧ ∀ (a : BitVec 16) (b : Byte) (rest : List HostMove), s.moves = .read a :: rest → a.toNat < s.flen.toNat →
        s.fb.read a.toNat = some b → step s = .next { s with moves := rest, hostReads := (a, b) :: s.hostReads }

/-- Derived from R155, R156: a faulted block that is handed a whole list of words is, at its end, as it was. -/
def Obligations.FaultedBlockSurvivesEveryList : Prop :=
  ∀ (ws : List Word) (s : State) (rest : List HostMove), s.wasReset = true → s.fault = true →
    s.moves = ws.map HostMove.command ++ rest →
    Host.Core.run core ws.length s = .next ({ s with moves := rest } : State)

/-- Derived from R156, R170: no step but a reset clears `FAULT` or changes `ERR` of a faulted block. -/
def Obligations.OnlyResetClearsTheFault : Prop :=
  ∀ s t : State, s.fault = true → step s = .next t →
    (t.fault = true ∧ t.err = s.err) ∨ ∃ rest, s.moves = .reset :: rest

/-! ### Frames over all commands -/

/-- Derived from R16, R17, R18, R19, R20, R25: which commands write which state. No command touches the parameter
`FB_SIZE` or the model's own fields. -/
def Obligations.EachStateHasItsWriters : Prop :=
  ∀ (i : Instr) (s t : State), exec i s = .next t →
    ((∀ fid val, i ≠ .setf fid val) → t.regs = s.regs)
    ∧ ((∀ base len cw, i ≠ .csumCompute base len cw) → (∀ base len, i ≠ .csumVerify base len) →
        t.res = s.res ∧ t.vok = s.vok)
    ∧ (i.appends = false → t.fb = s.fb)
    ∧ (i.appends = false → i ≠ .frameClear → t.flen = s.flen)
    ∧ t.fbSize = s.fbSize ∧ t.wasReset = s.wasReset ∧ t.moves = s.moves ∧ t.hostReads = s.hostReads
    ∧ t.draws = s.draws

/-- Derived from R39 (which the spec marks as derived): no command changes a byte at an offset below `FLEN`, and an
appending command changes no byte outside the ones it appends. -/
def Obligations.ComposedBytesNeverChange : Prop :=
  ∀ (i : Instr) (s t : State), exec i s = .next t →
    (∀ a, a < s.flen.toNat → t.fb.read a = s.fb.read a)
    ∧ (i.appends = true → s.flen.toNat ≤ t.flen.toNat
        ∧ ∀ a, t.flen.toNat ≤ a → t.fb.read a = s.fb.read a)

/-- Derived from R39, R123 (which the spec marks as derived): a list of appending commands whose byte sequences are
`segs` and fit in the buffer completes without a fault, and the frame grows by exactly their concatenation in order;
nothing else changes. -/
def Obligations.CompositionConcatenates : Prop :=
  ∀ (is : List Instr) (segs : List (List Byte)) (s : State), Ready s →
    List.Forall₂ (fun i bs => i.appends = true ∧ headerBytes i s.regs = .ok bs) is segs →
    s.flen.toNat + segs.flatten.length ≤ s.fbSize.val →
    ∃ t, execAll is s = .next t ∧ Appended s t segs.flatten
      ∧ ∀ f, frame s = some f → frame t = some (f ++ segs.flatten)

/-- Derived from R40: no append depends on the content of `FB`, only on `FLEN`. -/
def Obligations.AppendsIgnoreTheContents : Prop :=
  ∀ (i : Instr) (s t : State) (m : Memory), i.appends = true → exec i s = .next t →
    ∃ m', exec i { s with fb := m } = .next { t with fb := m' }
      ∧ ∀ a, s.flen.toNat ≤ a → a < t.flen.toNat → m'.read a = t.fb.read a

/-- Derived from R180, R37 (R180 is marked as derived): the block never reads at or above `FLEN`, so the answer of a
command that is no appending command depends on the bytes of the frame alone. -/
def Obligations.BytesAboveTheFrameDoNotMatter : Prop :=
  ∀ (i : Instr) (s t : State) (m : Memory), i.appends = false →
    (∀ a, a < s.flen.toNat → m.read a = s.fb.read a) → exec i s = .next t →
    exec i { s with fb := m } = .next { t with fb := m }

/-- Derived from R15: a packer's answer depends on the registers of its own group alone: with any other contents of
the other groups it completes, faults and appends in the same way. -/
def Obligations.HeaderGroupsAreIndependent : Prop :=
  ∀ (s t : State) (r : FieldRegs),
    (r.ethDst = s.regs.ethDst → r.ethSrc = s.regs.ethSrc → r.ethType = s.regs.ethType →
      exec .packEth s = .next t → exec .packEth { s with regs := r } = .next { t with regs := r })
    ∧ (r.arpHtype = s.regs.arpHtype → r.arpPtype = s.regs.arpPtype → r.arpOper = s.regs.arpOper →
      exec .packArph s = .next t → exec .packArph { s with regs := r } = .next { t with regs := r })
    ∧ (r.arpSha = s.regs.arpSha → r.arpSpa = s.regs.arpSpa → r.arpTha = s.regs.arpTha → r.arpTpa = s.regs.arpTpa →
      exec .packArpp s = .next t → exec .packArpp { s with regs := r } = .next { t with regs := r })
    ∧ (r.ipDscp = s.regs.ipDscp → r.ipEcn = s.regs.ipEcn → r.ipTotlen = s.regs.ipTotlen → r.ipId = s.regs.ipId →
      r.ipFlags = s.regs.ipFlags → r.ipFrag = s.regs.ipFrag → r.ipTtl = s.regs.ipTtl → r.ipProto = s.regs.ipProto →
      r.ipCsum = s.regs.ipCsum → r.ipSrc = s.regs.ipSrc → r.ipDst = s.regs.ipDst →
      exec .packIp4 s = .next t → exec .packIp4 { s with regs := r } = .next { t with regs := r })
    ∧ (r.udpSport = s.regs.udpSport → r.udpDport = s.regs.udpDport → r.udpLen = s.regs.udpLen →
      r.udpCsum = s.regs.udpCsum →
      exec .packUdp s = .next t → exec .packUdp { s with regs := r } = .next { t with regs := r })

/-! ### The invariant of the machine -/

/-- Derived from R12, R13, R17, R18, R20, R21, R151, R172: every step keeps the invariant: canonical memory inside the
buffer, every byte of the frame written, legal selectors, defaulted registers set, `ERR` and `FAULT` in agreement. -/
def Obligations.StepKeepsTheInvariant : Prop :=
  ∀ s t : State, Inv s → step s = .next t → Inv t

/-- Derived from R179, R180, R181: from a state that meets the invariant the machine never stops: every word the host
can issue, every reset and every read has a next state. In particular the block never reads a byte that was not
appended. That an empty list of moves leaves the block idle is the model's choice (log 3). -/
def Obligations.MachineNeverStops : Prop :=
  ∀ (n : Nat) (s : State), Inv s → ∃ t : State, Host.Core.run core n s = .next t ∧ Inv t

/-! ### The Checksum Engine's functions -/

/-- Derived from R66, R67(c), R75 (R67 is marked as derived): the fold in closed form, for every even-length sequence
whose sum cannot wrap; an odd-length sequence has no fold. -/
def Obligations.FoldHasItsClosedForm : Prop :=
  ∀ bs : List Byte,
    (bs.length % 2 = 0 → bs.length ≤ maxFoldBytes →
      ∃ sum, fold bs = some sum ∧ sum.toNat = closedFold (wordSum bs))
    ∧ (bs.length % 2 = 1 → fold bs = none)

/-- Derived from R67(b): the carry loop ends after at most two passes, whatever the 32-bit sum, with no carry left. -/
def Obligations.CarryLoopTakesAtMostTwoPasses : Prop :=
  ∀ (acc : BitVec 32) (fuel : Nat), 2 ≤ fuel →
    carryLoop fuel acc = carryLoop 2 acc ∧ (carryLoop fuel acc).extractLsb' 16 16 = 0

/-- Derived from R67(c): a fold is zero exactly when every byte is. -/
def Obligations.FoldIsZeroOnlyOnZeros : Prop :=
  ∀ (bs : List Byte) (sum : BitVec 16), bs.length ≤ maxFoldBytes → fold bs = some sum →
    (sum = 0 ↔ ∀ b ∈ bs, b = 0)

/-- Derived from R67(d): the fold does not depend on the order of the words. -/
def Obligations.FoldIgnoresTheOrderOfWords : Prop :=
  ∀ (bs cs : List Byte) (ws vs : List (BitVec 16)), bigEndianWords bs = some ws → bigEndianWords cs = some vs →
    ws.Perm vs → fold bs = fold cs

/-- Derived from R67(d): the fold of a concatenation is the fold of the two folds. -/
def Obligations.FoldOfConcatenation : Prop :=
  ∀ (bs cs : List Byte) (a b : BitVec 16), bs.length + cs.length ≤ maxFoldBytes →
    fold bs = some a → fold cs = some b → fold (bs ++ cs) = fold (be16 a ++ be16 b)

/-- Derived from R68, R71, R72 (R72 is marked as derived): the round-trip law. With the checksum field set to the
complement of the masked fold, the whole region folds to 0xFFFF. -/
def Obligations.ChecksumRoundTrip : Prop :=
  ∀ (bs : List Byte) (c : Nat) (r : BitVec 16), bs.length ≤ maxFoldBytes → 2 * c + 2 ≤ bs.length →
    foldMasked bs c = some r →
    fold (replaceWord bs c ((~~~r).extractLsb' 8 8) ((~~~r).extractLsb' 0 8)) = some 0xFFFF

/-- Derived from R73 (marked as derived): a region that verified does not verify with one bit changed. -/
def Obligations.SingleBitChangeIsDetected : Prop :=
  ∀ (bs : List Byte) (k j : Nat) (h : k < bs.length), bs.length ≤ maxFoldBytes → j < 8 → fold bs = some 0xFFFF →
    fold (bs.set k (bs[k] ^^^ (1#8 <<< j))) ≠ some 0xFFFF

/-- Derived from R82, R83, R84, R87: octets to a register value and back, both ways. -/
def Obligations.AddressOctetsRoundTrip : Prop :=
  (∀ o : Vector Byte 6, macBytes (macValue o) = o.toList)
  ∧ (∀ o : Vector Byte 4, ip4Bytes (ip4Value o) = o.toList)
  ∧ (∀ v : BitVec 48, ∃ o : Vector Byte 6, macBytes v = o.toList ∧ macValue o = v)
  ∧ (∀ v : BitVec 32, ∃ o : Vector Byte 4, ip4Bytes v = o.toList ∧ ip4Value o = v)

/-! ### The host's assembler -/

/-- Derived from R132, R133, R137 in the narrowest reading (the model's choice, log 13; the text form of a protocol
address is the model's choice too, log 14; the letter case of the canonical form is left to a parameter, log 15):
parsing the text form of an address gives the address back, and nothing but a text of exactly 17 characters is a
hardware address. -/
def Obligations.AddressTextRoundTrip : Prop :=
  (∀ (upper : Bool) (o : Vector Byte 6), parseMac (formatMac upper o) = some o)
  ∧ (∀ o : Vector Byte 4, parseIp4 (formatIp4 o) = some o)
  ∧ (∀ t : Text, t.length ≠ 17 → parseMac t = none)

/-! ### The host's channel and the control flow -/

/-- Derived from R138, R142, R143, R145: a channel that was opened gives its handle back exactly once: by its first
close, not by a second one and not by its destruction after a close; and a send after close is an error that asks the
kernel nothing. The channel is host software and no part of the block (R4); the numbering of the handles and the names
of the errors are the model's (log 20). -/
def Obligations.ChannelReleasesItsHandleOnce : Prop :=
  ∀ (d : ChannelDomain) (y : ChannelType) (p : ChannelProtocol) (w : ChannelWorld),
    let opened := (openChannel d y p .granted w).2
    let closed := closeChannel w.granted opened
    (openChannel d y p .granted w).1 = .ok w.granted
    ∧ opened.live = w.granted :: w.live
    ∧ closed.live = w.live ∧ closed.released = w.granted :: w.released
    ∧ closeChannel w.granted closed = closed
    ∧ (dropChannel w.granted closed).live = w.live
    ∧ (dropChannel w.granted closed).released = w.granted :: w.released
    ∧ ∀ bytes answer, sendFrame w.granted bytes answer closed = (.error .closed, closed)

/-- Derived from R138, R143: the ownership of handles is exclusive and none leaks. It holds before the first open, and
every open, whatever the operating system answers, every send, close and destruction keeps it. The record of the handles
is the model's own (log 20). -/
def Obligations.ChannelMovesKeepOwnership : Prop :=
  ChannelInv ChannelWorld.empty
  ∧ ∀ (m : ChannelMove) (w : ChannelWorld), ChannelInv w → ChannelInv (channelMove m w)
    ∧ ∀ e ∈ (channelMove m w).channels, ∀ f ∈ (channelMove m w).channels, ∀ h,
        e.2.handle = some h → f.2.handle = some h → e = f

/-- Derived from R138, R142: `close` is implicit on destruction. A channel that is destroyed while it is open gives its
handle back, once; one that is destroyed after a close gives nothing back; and afterwards there is no such channel. -/
def Obligations.ChannelIsReleasedOnDestruction : Prop :=
  ∀ (w : ChannelWorld) (name : Nat), ChannelInv w →
    (dropChannel name w).channel name = none
    ∧ (∀ n, n ≠ name → (dropChannel name w).channel n = w.channel n)
    ∧ (∀ h, w.handleOf name = some h →
        h ∈ w.live ∧ h ∉ w.released ∧ (dropChannel name w).live = w.live.erase h ∧ h ∉ (dropChannel name w).live
        ∧ (dropChannel name w).released = h :: w.released)
    ∧ (w.handleOf name = none →
        (dropChannel name w).live = w.live ∧ (dropChannel name w).released = w.released)

/-- Derived from R143, R144, R145: on every path out of a scope that acquires a channel (a failed open, a construction
that fails after the handle is granted, a send that fails, a normal end) every handle is given back, and no channel of
the scope is left. A failed send is the scope's error. That a scope ends at its first failed send, its later frames not
tried, is the model's choice (DESIGN CHOICE, log 23). -/
def Obligations.ScopeReleasesOnEveryPath : Prop :=
  ∀ (d : ChannelDomain) (y : ChannelType) (p : ChannelProtocol) (answer : OpenAnswer)
    (sends : List (List Byte × SendAnswer)) (w : ChannelWorld), ChannelInv w →
    (scopedChannel d y p answer sends w).2.live = w.live
    ∧ (scopedChannel d y p answer sends w).2.channels = w.channels
    ∧ ChannelInv (scopedChannel d y p answer sends w).2
    ∧ (∀ code, answer = .refused code ∨ answer = .abandoned code →
        (scopedChannel d y p answer sends w).1 = .error (.openFailed code))
    ∧ (answer = .granted → (scopedChannel d y p answer sends w).1
        = (sendEach w.granted sends (openChannel d y p .granted w).2).1)

/-- Derived from R145: a second open with the same parameters succeeds after an open and a close, and after a scope.
What the operating system answers is any function of the request and of the handles that are still held, which is how a
leaked handle could be observed at all; that it depends on nothing else is the model's choice (log 20). -/
def Obligations.SecondOpenSucceeds : Prop :=
  ∀ (d : ChannelDomain) (y : ChannelType) (p : ChannelProtocol) (sends : List (List Byte × SendAnswer))
    (w : ChannelWorld) (policy : OpenRequest → List Nat → OpenAnswer), ChannelInv w →
    policy (openRequest d y p) w.live = .granted →
    let closed := closeChannel w.granted (openChannel d y p .granted w).2
    let left := (scopedChannel d y p .granted sends w).2
    (openChannel d y p (policy (openRequest d y p) closed.live) closed).1 = .ok (w.granted + 1)
    ∧ (openChannel d y p (policy (openRequest d y p) left.live) left).1 = .ok (w.granted + 1)

/-- Derived from R139, R143: an open asks the kernel once, with the protocol number most significant byte first; a
refused open constructs no channel and holds no handle, and one that fails after the handle is granted has given it
back. The selectors' numbers and the width of the protocol's are free (N12, log 20). -/
def Obligations.OpenAsksInNetworkByteOrder : Prop :=
  ∀ (d : ChannelDomain) (y : ChannelType) (p : ChannelProtocol) (w : ChannelWorld),
    (∀ answer, ∃ r, (openChannel d y p answer w).2.requests = r :: w.requests
      ∧ r.domain = Config.domainCode d ∧ r.type = Config.typeCode y
      ∧ r.protocol.length = Config.protocolOctets
      ∧ ∀ k (h : k < r.protocol.length),
          r.protocol[k].toNat = Config.protocolCode p / 256 ^ (Config.protocolOctets - 1 - k) % 256)
    ∧ ∀ code,
      (openChannel d y p (.refused code) w).1 = .error (.openFailed code)
      ∧ (openChannel d y p (.refused code) w).2.channels = w.channels
      ∧ (openChannel d y p (.refused code) w).2.live = w.live
      ∧ (openChannel d y p (.refused code) w).2.granted = w.granted
      ∧ (openChannel d y p (.abandoned code) w).1 = .error (.openFailed code)
      ∧ (openChannel d y p (.abandoned code) w).2.channels = w.channels
      ∧ (openChannel d y p (.abandoned code) w).2.live = w.live
      ∧ (openChannel d y p (.abandoned code) w).2.released = w.granted :: w.released

/-- Derived from R141, R142, R144: a send on an open channel passes the frame's bytes to the kernel, with the destination
that the frame itself encodes, and answers the number of bytes written; a partial write and an error of the operating
system are errors; a send on a closed channel asks the kernel nothing. Two clauses are the model's (log 20): that the
destination is the frame's first six bytes (DEDUCED), and that an answer of more bytes than the frame has is treated as
a partial write. -/
def Obligations.SendPassesTheFrameToTheKernel : Prop :=
  ∀ (w : ChannelWorld) (name : Nat) (bytes : List Byte),
    (∀ h, w.handleOf name = some h →
      sendFrame name bytes (.wrote bytes.length) w
          = (.ok bytes.length, { w with written := ⟨h, bytes.take 6, bytes⟩ :: w.written })
      ∧ (∀ n, n ≠ bytes.length → sendFrame name bytes (.wrote n) w
          = (.error (.partialWrite n), { w with written := ⟨h, bytes.take 6, bytes.take n⟩ :: w.written }))
      ∧ ∀ code, sendFrame name bytes (.failed code) w = (.error (.sendFailed code), w))
    ∧ (w.handleOf name = none → ∀ answer, sendFrame name bytes answer w = (.error .closed, w))

/-- Derived from R123, R125, R141, R147: the control flow from the headers' texts to the wire. When the `SETF` commands
of the headers leave a block that is ready and every segment's byte sequence is set, and the sequences and the payload
fit in the buffer, the frame that the kernel receives is exactly the segments in order and then the payload. A flow
that ends in a fault sends nothing. Three clauses are the model's: that the destination in the kernel's record is the
frame's first six bytes, also for a frame that begins with no link header (DEDUCED, log 20); that the record exists
(log 20); and that one malformed text makes the flow issue no command at all (DESIGN CHOICE, log 21). -/
def Obligations.ComposedFrameReachesTheChannel : Prop :=
  ∀ (headers : List Pseudo) (segments : List Instr) (payload : List Byte) (name : Nat) (answer : SendAnswer)
    (s : State) (w : ChannelWorld),
    (expandAll headers = none →
      composeAndSend headers segments payload name answer s w = (.error .addressFormat, s, w))
    ∧ ∀ sets, expandAll headers = some sets →
      (∀ t, execAll (sets ++ composeCommands segments payload) s = .next t → t.fault = true →
        composeAndSend headers segments payload name answer s w = (.error .noFrame, t, w))
      ∧ ∀ u segs h, execAll sets s = .next u → Ready u → w.handleOf name = some h →
        List.Forall₂ (fun i bs => i.appends = true ∧ headerBytes i u.regs = .ok bs) segments segs →
        segs.flatten.length + payload.length ≤ u.fbSize.val →
        ∃ t, composeAndSend headers segments payload name (.wrote (segs.flatten.length + payload.length)) s w
            = (.ok (segs.flatten.length + payload.length), t,
                { w with written := ⟨h, (segs.flatten ++ payload).take 6, segs.flatten ++ payload⟩ :: w.written })
          ∧ t.fault = false ∧ frame t = some (segs.flatten ++ payload)

/-- Derived from R66, R67(c), R68 (R67 is marked as derived): the masked fold in closed form, the exact sum less the word
`c` counted from the start of the sequence; and which bytes the replacement of a word replaces. -/
def Obligations.MaskedFoldLeavesOneWordOut : Prop :=
  ∀ (bs : List Byte) (c : Nat) (h : 2 * c + 1 < bs.length),
    (bs.length % 2 = 0 → bs.length ≤ maxFoldBytes →
      ∃ sum, foldMasked bs c = some sum
        ∧ sum.toNat = closedFold (wordSum bs - (256 * bs[2 * c].toNat + bs[2 * c + 1].toNat)))
    ∧ ∀ (hi lo : Byte) (k : Nat), k < bs.length →
        (replaceWord bs c hi lo)[k]? = if k = 2 * c then some hi else if k = 2 * c + 1 then some lo else bs[k]?
end

