-- ==== Sys2Proof/Laws/Channel.lean ====
section
/-! SUPPORT. What each operation on the host's channels can do, said once. -/

namespace Sys2Proof.Machine

variable (w : ChannelWorld)

@[simp] theorem ChannelWorld.ask_channels (r : OpenRequest) : (w.ask r).channels = w.channels := rfl
@[simp] theorem ChannelWorld.ask_live (r : OpenRequest) : (w.ask r).live = w.live := rfl
@[simp] theorem ChannelWorld.ask_released (r : OpenRequest) : (w.ask r).released = w.released := rfl
@[simp] theorem ChannelWorld.ask_granted (r : OpenRequest) : (w.ask r).granted = w.granted := rfl
@[simp] theorem ChannelWorld.ask_requests (r : OpenRequest) : (w.ask r).requests = r :: w.requests := rfl
@[simp] theorem ChannelWorld.ask_written (r : OpenRequest) : (w.ask r).written = w.written := rfl

@[simp] theorem ChannelWorld.grant_channels : (w.grant).channels = w.channels := rfl
@[simp] theorem ChannelWorld.grant_live : (w.grant).live = w.granted :: w.live := rfl
@[simp] theorem ChannelWorld.grant_released : (w.grant).released = w.released := rfl
@[simp] theorem ChannelWorld.grant_granted : (w.grant).granted = w.granted + 1 := rfl
@[simp] theorem ChannelWorld.grant_requests : (w.grant).requests = w.requests := rfl
@[simp] theorem ChannelWorld.grant_written : (w.grant).written = w.written := rfl

@[simp] theorem ChannelWorld.giveBack_channels (h : Nat) : (w.giveBack h).channels = w.channels := rfl
@[simp] theorem ChannelWorld.giveBack_live (h : Nat) : (w.giveBack h).live = w.live.erase h := rfl
@[simp] theorem ChannelWorld.giveBack_released (h : Nat) : (w.giveBack h).released = h :: w.released := rfl
@[simp] theorem ChannelWorld.giveBack_granted (h : Nat) : (w.giveBack h).granted = w.granted := rfl
@[simp] theorem ChannelWorld.giveBack_requests (h : Nat) : (w.giveBack h).requests = w.requests := rfl
@[simp] theorem ChannelWorld.giveBack_written (h : Nat) : (w.giveBack h).written = w.written := rfl

@[simp] theorem ChannelWorld.construct_channels (name : Nat) (c : Channel) : (w.construct name c).channels = (name, c) :: w.channels := rfl
@[simp] theorem ChannelWorld.construct_live (name : Nat) (c : Channel) : (w.construct name c).live = w.live := rfl
@[simp] theorem ChannelWorld.construct_released (name : Nat) (c : Channel) : (w.construct name c).released = w.released := rfl
@[simp] theorem ChannelWorld.construct_granted (name : Nat) (c : Channel) : (w.construct name c).granted = w.granted := rfl
@[simp] theorem ChannelWorld.construct_requests (name : Nat) (c : Channel) : (w.construct name c).requests = w.requests := rfl
@[simp] theorem ChannelWorld.construct_written (name : Nat) (c : Channel) : (w.construct name c).written = w.written := rfl

@[simp] theorem ChannelWorld.disown_channels (name : Nat) : (w.disown name).channels = 
      w.channels.map (fun e => if e.1 = name then (e.1, { e.2 with handle := none }) else e) := rfl
@[simp] theorem ChannelWorld.disown_live (name : Nat) : (w.disown name).live = w.live := rfl
@[simp] theorem ChannelWorld.disown_released (name : Nat) : (w.disown name).released = w.released := rfl
@[simp] theorem ChannelWorld.disown_granted (name : Nat) : (w.disown name).granted = w.granted := rfl
@[simp] theorem ChannelWorld.disown_requests (name : Nat) : (w.disown name).requests = w.requests := rfl
@[simp] theorem ChannelWorld.disown_written (name : Nat) : (w.disown name).written = w.written := rfl

@[simp] theorem ChannelWorld.forget_channels (name : Nat) : (w.forget name).channels = w.channels.filter (fun e => e.1 != name) := rfl
@[simp] theorem ChannelWorld.forget_live (name : Nat) : (w.forget name).live = w.live := rfl
@[simp] theorem ChannelWorld.forget_released (name : Nat) : (w.forget name).released = w.released := rfl
@[simp] theorem ChannelWorld.forget_granted (name : Nat) : (w.forget name).granted = w.granted := rfl
@[simp] theorem ChannelWorld.forget_requests (name : Nat) : (w.forget name).requests = w.requests := rfl
@[simp] theorem ChannelWorld.forget_written (name : Nat) : (w.forget name).written = w.written := rfl

@[simp] theorem ChannelWorld.transmit_channels (t : Transmission) : (w.transmit t).channels = w.channels := rfl
@[simp] theorem ChannelWorld.transmit_live (t : Transmission) : (w.transmit t).live = w.live := rfl
@[simp] theorem ChannelWorld.transmit_released (t : Transmission) : (w.transmit t).released = w.released := rfl
@[simp] theorem ChannelWorld.transmit_granted (t : Transmission) : (w.transmit t).granted = w.granted := rfl
@[simp] theorem ChannelWorld.transmit_requests (t : Transmission) : (w.transmit t).requests = w.requests := rfl
@[simp] theorem ChannelWorld.transmit_written (t : Transmission) : (w.transmit t).written = t :: w.written := rfl

variable {w}

/-- A channel that is found under a name is one of the channels. -/
theorem mem_of_channel {name : Nat} {c : Channel} (h : w.channel name = some c) : (name, c) ∈ w.channels := by
  unfold ChannelWorld.channel at h
  generalize w.channels = es at h ⊢
  induction es with
  | nil => cases h
  | cons e es ih =>
    obtain ⟨m, d⟩ := e
    by_cases hm : name = m
    · subst hm
      rw [List.lookup_cons_self, Option.some.injEq] at h
      exact h ▸ .head _
    · rw [List.lookup_cons, beq_false_of_ne hm] at h
      exact .tail _ (ih h)

/-- A channel whose name no other has is the one found under it. -/
theorem channel_of_mem (hn : (w.channels.map (·.1)).Nodup) {e : Nat × Channel} (h : e ∈ w.channels) :
    w.channel e.1 = some e.2 := by
  unfold ChannelWorld.channel
  generalize w.channels = es at hn h
  induction es with
  | nil => cases h
  | cons d es ih =>
    obtain ⟨hd, hn⟩ := List.nodup_cons.mp hn
    rcases List.mem_cons.mp h with rfl | h
    · exact List.lookup_cons_self
    · have hne : e.1 ≠ d.1 := fun he => hd (List.mem_map.mpr ⟨e, h, he⟩)
      rw [List.lookup_cons, beq_false_of_ne hne]
      exact ih hn h

theorem handleOf_eq_some {name h : Nat} :
    w.handleOf name = some h ↔ ∃ c, w.channel name = some c ∧ c.handle = some h := Option.bind_eq_some_iff

/-- A channel that has just been constructed is the one found under its name. -/
@[simp] theorem handleOf_construct (name : Nat) (c : Channel) : (w.construct name c).handleOf name = c.handle := by
  simp [ChannelWorld.handleOf, ChannelWorld.channel]

/-- A channel that has been closed owns no handle. -/
@[simp] theorem handleOf_disown (name : Nat) : (w.disown name).handleOf name = none := by
  rw [Option.eq_none_iff_forall_ne_some]
  intro h hh
  obtain ⟨c, hc, hh⟩ := handleOf_eq_some.mp hh
  obtain ⟨e, -, he⟩ := List.mem_map.mp (mem_of_channel hc)
  split at he
  · cases he
    cases hh
  · next hne => exact hne (congrArg Prod.fst he)

@[simp] theorem handleOf_giveBack (h name : Nat) : (w.giveBack h).handleOf name = w.handleOf name := rfl

/-- A channel that is gone is not found, and the others are found as before. -/
theorem channel_forget (name n : Nat) : (w.forget name).channel n = if n = name then none else w.channel n := by
  simp only [ChannelWorld.channel, ChannelWorld.forget_channels]
  induction w.channels with
  | nil => simp
  | cons e es ih =>
    obtain ⟨m, c⟩ := e
    by_cases hm : m = name
    · subst hm
      rw [List.filter_cons_of_neg (by simp), ih]
      split
      · rfl
      · next h => rw [List.lookup_cons, beq_false_of_ne h]
    · rw [List.filter_cons_of_pos (by simpa using hm), List.lookup_cons, List.lookup_cons, ih]
      by_cases hn : n = m
      · subst hn
        simp [hm]
      · simp [beq_false_of_ne hn]

/-- Taking a handle from one channel leaves the others as they are. -/
theorem channel_disown {name n : Nat} (h : n ≠ name) : (w.disown name).channel n = w.channel n := by
  simp only [ChannelWorld.channel, ChannelWorld.disown_channels]
  induction w.channels with
  | nil => rfl
  | cons e es ih =>
    obtain ⟨m, c⟩ := e
    by_cases hm : m = name
    · subst hm
      simp [List.lookup_cons, beq_false_of_ne h, ih]
    · simp [List.lookup_cons, hm, ih]

/-- What a send changes: at most the kernel's record of what it received. -/
theorem sendFrame_cases (name : Nat) (bytes : List Byte) (answer : SendAnswer) (w : ChannelWorld) :
    (sendFrame name bytes answer w).2 = w ∨ ∃ t, (sendFrame name bytes answer w).2 = w.transmit t := by
  unfold sendFrame
  split
  · exact .inl rfl
  · split
    · exact .inl rfl
    · exact .inr ⟨_, rfl⟩

/-- What the sends of a scope leave alone. -/
theorem sendEach_frame (name : Nat) (sends : List (List Byte × SendAnswer)) (w : ChannelWorld) :
    ∃ received, (sendEach name sends w).2 = { w with written := received ++ w.written } := by
  induction sends generalizing w with
  | nil => exact ⟨[], rfl⟩
  | cons e rest ih =>
    obtain ⟨bytes, answer⟩ := e
    have hone : ∃ r, (sendFrame name bytes answer w).2 = { w with written := r ++ w.written } := by
      rcases sendFrame_cases name bytes answer w with h | ⟨t, h⟩
      · exact ⟨[], h⟩
      · exact ⟨[t], h⟩
    obtain ⟨r, hr⟩ := hone
    unfold sendEach
    rcases hs : sendFrame name bytes answer w with ⟨_ | n, v⟩ <;> rw [hs] at hr <;> subst hr
    · exact ⟨r, rfl⟩
    · obtain ⟨r', hr'⟩ := ih { w with written := r ++ w.written }
      rcases he : sendEach name rest { w with written := r ++ w.written } with ⟨_ | ns, v⟩
      all_goals
        rw [he] at hr'
        subst hr'
        simp only [he]
        exact ⟨r' ++ r, by rw [List.append_assoc]⟩

/-- A close of a channel that owns no handle does nothing; else the handle is given back. -/
theorem closeChannel_cases (name : Nat) (w : ChannelWorld) :
    (w.handleOf name = none ∧ closeChannel name w = w)
      ∨ ∃ h, w.handleOf name = some h ∧ closeChannel name w = (w.disown name).giveBack h := by
  unfold closeChannel
  cases w.handleOf name with
  | none => exact .inl ⟨rfl, rfl⟩
  | some h => exact .inr ⟨h, rfl, rfl⟩

/-- The network byte order has as many bytes as it is asked for, the most significant first. -/
@[simp] theorem length_networkBytes (n v : Nat) : (networkBytes n v).length = n := by
  induction n with
  | zero => rfl
  | succ n ih => simp [networkBytes, ih]

end Sys2Proof.Machine
end

