-- ==== Sys2Proof/Laws/Checksum.lean ====
section
/-! SUPPORT. Small laws of the Checksum Engine's functions (rules R66, R68). -/

namespace Sys2Proof.Machine

@[simp] theorem length_replaceWord (s : List Byte) (c : Nat) (hi lo : Byte) :
    (replaceWord s c hi lo).length = s.length := by simp [replaceWord]

/-- A byte sequence has words exactly when its length is even, half as many. -/
theorem bigEndianWords_even (bs : List Byte) (h : bs.length % 2 = 0) :
    ∃ ws, bigEndianWords bs = some ws ∧ 2 * ws.length = bs.length := by
  induction bs using bigEndianWords.induct with
  | case1 => exact ⟨[], rfl, rfl⟩
  | case2 b => simp at h
  | case3 hi lo rest ih =>
    obtain ⟨ws, hw, hl⟩ := ih (by simp only [List.length_cons] at h; omega)
    exact ⟨(hi ++ lo) :: ws, by simp [bigEndianWords, hw], by simp only [List.length_cons]; omega⟩

theorem bigEndianWords_odd (bs : List Byte) (h : bs.length % 2 = 1) : bigEndianWords bs = none := by
  induction bs using bigEndianWords.induct with
  | case1 => simp at h
  | case2 b => rfl
  | case3 hi lo rest ih =>
    simp [bigEndianWords, ih (by simp only [List.length_cons] at h; omega)]

/-- An even-length sequence has a fold. -/
theorem fold_isSome {bs : List Byte} (h : bs.length % 2 = 0) : ∃ r, fold bs = some r := by
  obtain ⟨ws, hw, -⟩ := bigEndianWords_even bs h
  exact ⟨foldWords ws, by simp [fold, hw]⟩

theorem foldMasked_isSome {bs : List Byte} (c : Nat) (h : bs.length % 2 = 0) : ∃ r, foldMasked bs c = some r :=
  fold_isSome (by simpa using h)

/-- One pass of the carry loop in numbers. -/
theorem carryPass_toNat (acc : BitVec 32) : (carryPass acc).toNat = acc.toNat % 65536 + acc.toNat / 65536 := by
  have hacc := acc.isLt
  have hlo : acc.toNat % 65536 % 4294967296 = acc.toNat % 65536 := Nat.mod_eq_of_lt (by omega)
  have hhi : acc.toNat / 65536 % 65536 = acc.toNat / 65536 := Nat.mod_eq_of_lt (by omega)
  have hhi' : acc.toNat / 65536 % 4294967296 = acc.toNat / 65536 := Nat.mod_eq_of_lt (by omega)
  simp only [carryPass, BitVec.toNat_add, BitVec.toNat_setWidth, BitVec.extractLsb'_toNat,
    Nat.shiftRight_eq_div_pow, Nat.pow_zero, Nat.div_one, Nat.reducePow, hlo, hhi, hhi']
  omega

end Sys2Proof.Machine
end

