-- ==== Sys2Proof/Laws/Encoding.lean ====
section
/-! SUPPORT. The fields of a command word (rules R46, R49): taking a word apart and putting it together again. -/

namespace Sys2Proof

/-- The number of `hi ‖ lo`. -/
theorem toNat_concat {n m : Nat} (hi : BitVec n) (lo : BitVec m) :
    (hi ++ lo).toNat = hi.toNat * 2 ^ m + lo.toNat := by
  rw [BitVec.toNat_append, Nat.shiftLeft_eq, Nat.mul_comm, ← Nat.two_pow_add_eq_or_of_lt lo.isLt]

theorem wordOf_toNat (op a : BitVec 8) (imm : BitVec 48) :
    (wordOf op a imm).toNat = op.toNat * 2 ^ 56 + a.toNat * 2 ^ 48 + imm.toNat := by
  have h : (wordOf op a imm).toNat = (op ++ a ++ imm : BitVec (8 + 8 + 48)).toNat := rfl
  rw [h, toNat_concat, toNat_concat]
  omega

theorem regionImm_toNat (len base : BitVec 16) :
    ((0#16 ++ len ++ base : BitVec (16 + 16 + 16)) : BitVec 48).toNat = len.toNat * 2 ^ 16 + base.toNat := by
  have h : ((0#16 ++ len ++ base : BitVec (16 + 16 + 16)) : BitVec 48).toNat
      = (0#16 ++ len ++ base : BitVec (16 + 16 + 16)).toNat := rfl
  rw [h, toNat_concat, toNat_concat]
  simp

theorem byteImm_toNat (byte : Byte) : ((0#40 ++ byte : BitVec (40 + 8)) : BitVec 48).toNat = byte.toNat := by
  have h : ((0#40 ++ byte : BitVec (40 + 8)) : BitVec 48).toNat = (0#40 ++ byte : BitVec (40 + 8)).toNat := rfl
  rw [h, toNat_concat]
  simp

theorem opField_toNat (w : Word) : (opField w).toNat = w.toNat / 2 ^ 56 % 2 ^ 8 := by
  simp [opField, BitVec.extractLsb'_toNat, Nat.shiftRight_eq_div_pow]

theorem aField_toNat (w : Word) : (aField w).toNat = w.toNat / 2 ^ 48 % 2 ^ 8 := by
  simp [aField, BitVec.extractLsb'_toNat, Nat.shiftRight_eq_div_pow]

theorem immField_toNat (w : Word) : (immField w).toNat = w.toNat % 2 ^ 48 := by
  simp [immField, BitVec.extractLsb'_toNat]

theorem regionMbz_toNat (w : Word) : (regionMbz w).toNat = w.toNat / 2 ^ 32 % 2 ^ 16 := by
  simp [regionMbz, BitVec.extractLsb'_toNat, Nat.shiftRight_eq_div_pow]

theorem lenField_toNat (w : Word) : (lenField w).toNat = w.toNat / 2 ^ 16 % 2 ^ 16 := by
  simp [lenField, BitVec.extractLsb'_toNat, Nat.shiftRight_eq_div_pow]

theorem baseField_toNat (w : Word) : (baseField w).toNat = w.toNat % 2 ^ 16 := by
  simp [baseField, BitVec.extractLsb'_toNat]

theorem byteMbz_toNat (w : Word) : (byteMbz w).toNat = w.toNat / 2 ^ 8 % 2 ^ 40 := by
  simp [byteMbz, BitVec.extractLsb'_toNat, Nat.shiftRight_eq_div_pow]

theorem byteField_toNat (w : Word) : (byteField w).toNat = w.toNat % 2 ^ 8 := by
  simp [byteField, BitVec.extractLsb'_toNat]

@[simp] theorem opField_wordOf (op a : BitVec 8) (imm : BitVec 48) : opField (wordOf op a imm) = op := by
  have := op.isLt
  have := a.isLt
  have := imm.isLt
  rw [← BitVec.toNat_inj, opField_toNat, wordOf_toNat]
  omega

@[simp] theorem aField_wordOf (op a : BitVec 8) (imm : BitVec 48) : aField (wordOf op a imm) = a := by
  have := a.isLt
  have := imm.isLt
  rw [← BitVec.toNat_inj, aField_toNat, wordOf_toNat]
  omega

@[simp] theorem immField_wordOf (op a : BitVec 8) (imm : BitVec 48) : immField (wordOf op a imm) = imm := by
  have := imm.isLt
  rw [← BitVec.toNat_inj, immField_toNat, wordOf_toNat]
  omega

/-- A word is its three fields (R46). -/
theorem wordOf_fields (w : Word) : wordOf (opField w) (aField w) (immField w) = w := by
  have := w.isLt
  rw [← BitVec.toNat_inj, wordOf_toNat, opField_toNat, aField_toNat, immField_toNat]
  omega

/-- Two words with the same fields are the same. -/
theorem word_ext {w v : Word} (h1 : opField w = opField v) (h2 : aField w = aField v) (h3 : immField w = immField v) :
    w = v := by
  rw [← wordOf_fields w, ← wordOf_fields v, h1, h2, h3]

theorem opField_and (w m : Word) : opField (w &&& m) = opField w &&& opField m := BitVec.extractLsb'_and ..
theorem aField_and (w m : Word) : aField (w &&& m) = aField w &&& aField m := BitVec.extractLsb'_and ..
theorem immField_and (w m : Word) : immField (w &&& m) = immField w &&& immField m := BitVec.extractLsb'_and ..

/-- A word selects a row field by field (R58). -/
theorem selectedBy_iff (r : OpcodeRow) (w : Word) :
    r.selectedBy w = true ↔
      opField w &&& opField r.mask = opField r.pattern ∧ aField w &&& aField r.mask = aField r.pattern
        ∧ immField w &&& immField r.mask = immField r.pattern := by
  rw [OpcodeRow.selectedBy, beq_iff_eq]
  constructor
  · intro h
    rw [← h, opField_and, aField_and, immField_and]
    exact ⟨rfl, rfl, rfl⟩
  · rintro ⟨h1, h2, h3⟩
    exact word_ext (by rw [opField_and, h1]) (by rw [aField_and, h2]) (by rw [immField_and, h3])

end Sys2Proof
end

