-- ==== Sys2Proof/Laws/Fields.lean ====
section
/-! SUPPORT. The field-register table and register reads after writes (rules R12, R13, R81). -/

namespace Sys2Proof.Machine

/-- Each register is the one its id names. -/
theorem fieldNamed_id (f : FieldId) : fieldNamed f.id = some f := by cases f <;> rfl

/-- The register an id names has that id. -/
theorem id_of_fieldNamed {fid : BitVec 8} {f : FieldId} (h : fieldNamed fid = some f) : f.id = fid := by
  have := List.find?_some h
  simpa using this

theorem fieldNamed_eq_some {fid : BitVec 8} {f : FieldId} : fieldNamed fid = some f ↔ f.id = fid :=
  ⟨id_of_fieldNamed, fun h => h ▸ fieldNamed_id f⟩

/-- An id names no register exactly when no register has it. -/
theorem fieldNamed_eq_none {fid : BitVec 8} : fieldNamed fid = none ↔ ∀ f : FieldId, f.id ≠ fid := by
  constructor
  · intro h f hf
    rw [← hf, fieldNamed_id] at h
    cases h
  · intro h
    cases hn : fieldNamed fid with
    | none => rfl
    | some f => exact absurd (id_of_fieldNamed hn) (h f)

@[simp] theorem get_set_same (r : FieldRegs) (f : FieldId) (v : BitVec f.width) : (r.set f v).get f = some v := by
  cases f <;> rfl

theorem get_set_other (r : FieldRegs) {f g : FieldId} (v : BitVec f.width) (h : g ≠ f) :
    (r.set f v).get g = r.get g := by
  cases f <;> cases g <;> first | rfl | exact absurd rfl h

/-- Two register files that agree on every register are the same. -/
theorem regs_ext {r q : FieldRegs} (h : ∀ f, r.get f = q.get f) : r = q := by
  cases r
  cases q
  simp only [FieldRegs.mk.injEq]
  exact ⟨h .ethDst, h .ethSrc, h .ethType, h .arpHtype, h .arpPtype, h .arpOper, h .arpSha, h .arpSpa, h .arpTha,
    h .arpTpa, h .ipDscp, h .ipEcn, h .ipTotlen, h .ipId, h .ipFlags, h .ipFrag, h .ipTtl, h .ipProto, h .ipCsum,
    h .ipSrc, h .ipDst, h .udpSport, h .udpDport, h .udpLen, h .udpCsum⟩

/-- A register of kind MAC is 48 bits wide. -/
theorem width_of_mac {f : FieldId} (h : f.kind = .mac) : f.width = 48 := by cases f <;> first | rfl | cases h

/-- A register of kind IP4 is 32 bits wide. -/
theorem width_of_ip4 {f : FieldId} (h : f.kind = .ip4) : f.width = 32 := by cases f <;> first | rfl | cases h

/-- A register of another kind than SEL takes every value. -/
theorem legal_of_not_sel {f : FieldId} (h : f.kind ≠ .sel) (v : Nat) : f.legal v = true := by
  cases f <;> first | rfl | exact absurd rfl h

/-- `IMM[47:w]` is zero exactly when the immediate is less than `2^w`. -/
theorem valueFits_iff (f : FieldId) (val : BitVec 48) : valueFits f val = true ↔ val.toNat < 2 ^ f.width := by
  have hpos : 0 < 2 ^ f.width := Nat.two_pow_pos _
  simp only [valueFits, beq_iff_eq, ← BitVec.toNat_inj, BitVec.toNat_ushiftRight, Nat.shiftRight_eq_div_pow,
    BitVec.toNat_ofNat, Nat.zero_mod, Nat.div_eq_zero_iff]
  omega

@[simp] theorem length_be16 (v : BitVec 16) : (be16 v).length = 2 := rfl
@[simp] theorem length_be32 (v : BitVec 32) : (be32 v).length = 4 := rfl
@[simp] theorem length_be48 (v : BitVec 48) : (be48 v).length = 6 := rfl
@[simp] theorem length_macBytes (v : BitVec 48) : (macBytes v).length = 6 := rfl
@[simp] theorem length_ip4Bytes (v : BitVec 32) : (ip4Bytes v).length = 4 := rfl

end Sys2Proof.Machine
end

