-- ==== Sys2Proof/Laws/State.lean ====
section
/-! SUPPORT. What each named update of the state does to each field, once. -/

namespace Sys2Proof.Machine

variable (s : State)

@[simp] theorem State.setField_regs (f : FieldId) (v : BitVec f.width) : (s.setField f v).regs = s.regs.set f v := rfl
@[simp] theorem State.setField_fb (f : FieldId) (v : BitVec f.width) : (s.setField f v).fb = s.fb := rfl
@[simp] theorem State.setField_flen (f : FieldId) (v : BitVec f.width) : (s.setField f v).flen = s.flen := rfl
@[simp] theorem State.setField_res (f : FieldId) (v : BitVec f.width) : (s.setField f v).res = s.res := rfl
@[simp] theorem State.setField_vok (f : FieldId) (v : BitVec f.width) : (s.setField f v).vok = s.vok := rfl
@[simp] theorem State.setField_fault (f : FieldId) (v : BitVec f.width) : (s.setField f v).fault = s.fault := rfl
@[simp] theorem State.setField_err (f : FieldId) (v : BitVec f.width) : (s.setField f v).err = s.err := rfl
@[simp] theorem State.setField_fbSize (f : FieldId) (v : BitVec f.width) : (s.setField f v).fbSize = s.fbSize := rfl
@[simp] theorem State.setField_wasReset (f : FieldId) (v : BitVec f.width) : (s.setField f v).wasReset = s.wasReset := rfl
@[simp] theorem State.setField_moves (f : FieldId) (v : BitVec f.width) : (s.setField f v).moves = s.moves := rfl
@[simp] theorem State.setField_hostReads (f : FieldId) (v : BitVec f.width) : (s.setField f v).hostReads = s.hostReads := rfl
@[simp] theorem State.setField_draws (f : FieldId) (v : BitVec f.width) : (s.setField f v).draws = s.draws := rfl

@[simp] theorem State.appendBytes_regs (bs : List Byte) : (s.appendBytes bs).regs = s.regs := rfl
@[simp] theorem State.appendBytes_fb (bs : List Byte) : (s.appendBytes bs).fb = s.fb.writeBytes s.flen.toNat bs := rfl
@[simp] theorem State.appendBytes_flen (bs : List Byte) : (s.appendBytes bs).flen = s.flen + BitVec.ofNat 16 bs.length := rfl
@[simp] theorem State.appendBytes_res (bs : List Byte) : (s.appendBytes bs).res = s.res := rfl
@[simp] theorem State.appendBytes_vok (bs : List Byte) : (s.appendBytes bs).vok = s.vok := rfl
@[simp] theorem State.appendBytes_fault (bs : List Byte) : (s.appendBytes bs).fault = s.fault := rfl
@[simp] theorem State.appendBytes_err (bs : List Byte) : (s.appendBytes bs).err = s.err := rfl
@[simp] theorem State.appendBytes_fbSize (bs : List Byte) : (s.appendBytes bs).fbSize = s.fbSize := rfl
@[simp] theorem State.appendBytes_wasReset (bs : List Byte) : (s.appendBytes bs).wasReset = s.wasReset := rfl
@[simp] theorem State.appendBytes_moves (bs : List Byte) : (s.appendBytes bs).moves = s.moves := rfl
@[simp] theorem State.appendBytes_hostReads (bs : List Byte) : (s.appendBytes bs).hostReads = s.hostReads := rfl
@[simp] theorem State.appendBytes_draws (bs : List Byte) : (s.appendBytes bs).draws = s.draws := rfl

@[simp] theorem State.clearFrame_regs : (s.clearFrame).regs = s.regs := rfl
@[simp] theorem State.clearFrame_fb : (s.clearFrame).fb = s.fb := rfl
@[simp] theorem State.clearFrame_flen : (s.clearFrame).flen = 0#16 := rfl
@[simp] theorem State.clearFrame_res : (s.clearFrame).res = s.res := rfl
@[simp] theorem State.clearFrame_vok : (s.clearFrame).vok = s.vok := rfl
@[simp] theorem State.clearFrame_fault : (s.clearFrame).fault = s.fault := rfl
@[simp] theorem State.clearFrame_err : (s.clearFrame).err = s.err := rfl
@[simp] theorem State.clearFrame_fbSize : (s.clearFrame).fbSize = s.fbSize := rfl
@[simp] theorem State.clearFrame_wasReset : (s.clearFrame).wasReset = s.wasReset := rfl
@[simp] theorem State.clearFrame_moves : (s.clearFrame).moves = s.moves := rfl
@[simp] theorem State.clearFrame_hostReads : (s.clearFrame).hostReads = s.hostReads := rfl
@[simp] theorem State.clearFrame_draws : (s.clearFrame).draws = s.draws := rfl

@[simp] theorem State.setResult_regs (r : BitVec 16) (ok : Bool) : (s.setResult r ok).regs = s.regs := rfl
@[simp] theorem State.setResult_fb (r : BitVec 16) (ok : Bool) : (s.setResult r ok).fb = s.fb := rfl
@[simp] theorem State.setResult_flen (r : BitVec 16) (ok : Bool) : (s.setResult r ok).flen = s.flen := rfl
@[simp] theorem State.setResult_res (r : BitVec 16) (ok : Bool) : (s.setResult r ok).res = r := rfl
@[simp] theorem State.setResult_vok (r : BitVec 16) (ok : Bool) : (s.setResult r ok).vok = ok := rfl
@[simp] theorem State.setResult_fault (r : BitVec 16) (ok : Bool) : (s.setResult r ok).fault = s.fault := rfl
@[simp] theorem State.setResult_err (r : BitVec 16) (ok : Bool) : (s.setResult r ok).err = s.err := rfl
@[simp] theorem State.setResult_fbSize (r : BitVec 16) (ok : Bool) : (s.setResult r ok).fbSize = s.fbSize := rfl
@[simp] theorem State.setResult_wasReset (r : BitVec 16) (ok : Bool) : (s.setResult r ok).wasReset = s.wasReset := rfl
@[simp] theorem State.setResult_moves (r : BitVec 16) (ok : Bool) : (s.setResult r ok).moves = s.moves := rfl
@[simp] theorem State.setResult_hostReads (r : BitVec 16) (ok : Bool) : (s.setResult r ok).hostReads = s.hostReads := rfl
@[simp] theorem State.setResult_draws (r : BitVec 16) (ok : Bool) : (s.setResult r ok).draws = s.draws := rfl

@[simp] theorem State.takeFault_regs (c : FaultCode) : (s.takeFault c).regs = s.regs := rfl
@[simp] theorem State.takeFault_fb (c : FaultCode) : (s.takeFault c).fb = s.fb := rfl
@[simp] theorem State.takeFault_flen (c : FaultCode) : (s.takeFault c).flen = s.flen := rfl
@[simp] theorem State.takeFault_res (c : FaultCode) : (s.takeFault c).res = s.res := rfl
@[simp] theorem State.takeFault_vok (c : FaultCode) : (s.takeFault c).vok = s.vok := rfl
@[simp] theorem State.takeFault_fault (c : FaultCode) : (s.takeFault c).fault = true := rfl
@[simp] theorem State.takeFault_err (c : FaultCode) : (s.takeFault c).err = c.code := rfl
@[simp] theorem State.takeFault_fbSize (c : FaultCode) : (s.takeFault c).fbSize = s.fbSize := rfl
@[simp] theorem State.takeFault_wasReset (c : FaultCode) : (s.takeFault c).wasReset = s.wasReset := rfl
@[simp] theorem State.takeFault_moves (c : FaultCode) : (s.takeFault c).moves = s.moves := rfl
@[simp] theorem State.takeFault_hostReads (c : FaultCode) : (s.takeFault c).hostReads = s.hostReads := rfl
@[simp] theorem State.takeFault_draws (c : FaultCode) : (s.takeFault c).draws = s.draws := rfl

@[simp] theorem State.setMoves_regs (ms : List HostMove) : (s.setMoves ms).regs = s.regs := rfl
@[simp] theorem State.setMoves_fb (ms : List HostMove) : (s.setMoves ms).fb = s.fb := rfl
@[simp] theorem State.setMoves_flen (ms : List HostMove) : (s.setMoves ms).flen = s.flen := rfl
@[simp] theorem State.setMoves_res (ms : List HostMove) : (s.setMoves ms).res = s.res := rfl
@[simp] theorem State.setMoves_vok (ms : List HostMove) : (s.setMoves ms).vok = s.vok := rfl
@[simp] theorem State.setMoves_fault (ms : List HostMove) : (s.setMoves ms).fault = s.fault := rfl
@[simp] theorem State.setMoves_err (ms : List HostMove) : (s.setMoves ms).err = s.err := rfl
@[simp] theorem State.setMoves_fbSize (ms : List HostMove) : (s.setMoves ms).fbSize = s.fbSize := rfl
@[simp] theorem State.setMoves_wasReset (ms : List HostMove) : (s.setMoves ms).wasReset = s.wasReset := rfl
@[simp] theorem State.setMoves_moves (ms : List HostMove) : (s.setMoves ms).moves = ms := rfl
@[simp] theorem State.setMoves_hostReads (ms : List HostMove) : (s.setMoves ms).hostReads = s.hostReads := rfl
@[simp] theorem State.setMoves_draws (ms : List HostMove) : (s.setMoves ms).draws = s.draws := rfl

@[simp] theorem State.recordRead_regs (a : BitVec 16) (b : Byte) : (s.recordRead a b).regs = s.regs := rfl
@[simp] theorem State.recordRead_fb (a : BitVec 16) (b : Byte) : (s.recordRead a b).fb = s.fb := rfl
@[simp] theorem State.recordRead_flen (a : BitVec 16) (b : Byte) : (s.recordRead a b).flen = s.flen := rfl
@[simp] theorem State.recordRead_res (a : BitVec 16) (b : Byte) : (s.recordRead a b).res = s.res := rfl
@[simp] theorem State.recordRead_vok (a : BitVec 16) (b : Byte) : (s.recordRead a b).vok = s.vok := rfl
@[simp] theorem State.recordRead_fault (a : BitVec 16) (b : Byte) : (s.recordRead a b).fault = s.fault := rfl
@[simp] theorem State.recordRead_err (a : BitVec 16) (b : Byte) : (s.recordRead a b).err = s.err := rfl
@[simp] theorem State.recordRead_fbSize (a : BitVec 16) (b : Byte) : (s.recordRead a b).fbSize = s.fbSize := rfl
@[simp] theorem State.recordRead_wasReset (a : BitVec 16) (b : Byte) : (s.recordRead a b).wasReset = s.wasReset := rfl
@[simp] theorem State.recordRead_moves (a : BitVec 16) (b : Byte) : (s.recordRead a b).moves = s.moves := rfl
@[simp] theorem State.recordRead_hostReads (a : BitVec 16) (b : Byte) : (s.recordRead a b).hostReads = (a, b) :: s.hostReads := rfl
@[simp] theorem State.recordRead_draws (a : BitVec 16) (b : Byte) : (s.recordRead a b).draws = s.draws := rfl

@[simp] theorem State.countDraw_regs : (s.countDraw).regs = s.regs := rfl
@[simp] theorem State.countDraw_fb : (s.countDraw).fb = s.fb := rfl
@[simp] theorem State.countDraw_flen : (s.countDraw).flen = s.flen := rfl
@[simp] theorem State.countDraw_res : (s.countDraw).res = s.res := rfl
@[simp] theorem State.countDraw_vok : (s.countDraw).vok = s.vok := rfl
@[simp] theorem State.countDraw_fault : (s.countDraw).fault = s.fault := rfl
@[simp] theorem State.countDraw_err : (s.countDraw).err = s.err := rfl
@[simp] theorem State.countDraw_fbSize : (s.countDraw).fbSize = s.fbSize := rfl
@[simp] theorem State.countDraw_wasReset : (s.countDraw).wasReset = s.wasReset := rfl
@[simp] theorem State.countDraw_moves : (s.countDraw).moves = s.moves := rfl
@[simp] theorem State.countDraw_hostReads : (s.countDraw).hostReads = s.hostReads := rfl
@[simp] theorem State.countDraw_draws : (s.countDraw).draws = s.draws + 1 := rfl

@[simp] theorem State.applyReset_regs : (s.applyReset).regs = FieldRegs.reset := rfl
@[simp] theorem State.applyReset_fb : (s.applyReset).fb = [] := rfl
@[simp] theorem State.applyReset_flen : (s.applyReset).flen = 0#16 := rfl
@[simp] theorem State.applyReset_res : (s.applyReset).res = 0 := rfl
@[simp] theorem State.applyReset_vok : (s.applyReset).vok = false := rfl
@[simp] theorem State.applyReset_fault : (s.applyReset).fault = false := rfl
@[simp] theorem State.applyReset_err : (s.applyReset).err = 0 := rfl
@[simp] theorem State.applyReset_fbSize : (s.applyReset).fbSize = s.fbSize := rfl
@[simp] theorem State.applyReset_wasReset : (s.applyReset).wasReset = true := rfl
@[simp] theorem State.applyReset_moves : (s.applyReset).moves = s.moves := rfl
@[simp] theorem State.applyReset_hostReads : (s.applyReset).hostReads = s.hostReads := rfl
@[simp] theorem State.applyReset_draws : (s.applyReset).draws = s.draws := rfl

end Sys2Proof.Machine
end

