-- ==== Sys2Proof/Laws/Ops.lean ====
section
/-! SUPPORT. What each shared operation of Machine/Ops.lean can do, said once. -/

namespace Sys2Proof.Machine

@[simp] theorem need_some {α : Type} (v : α) : need (some v) = .ok v := rfl
@[simp] theorem need_none {α : Type} : need (none : Option α) = .error (.raise .unsetField) := rfl

@[simp] theorem bind_ok {α β : Type} (a : α) (f : α → Except Abandon β) :
    ((Except.ok a : Except Abandon α) >>= f) = f a := rfl
@[simp] theorem bind_error {α β : Type} (e : Abandon) (f : α → Except Abandon β) :
    ((Except.error e : Except Abandon α) >>= f) = .error e := rfl

/-- `Need` answers the register's value or raises `UNSET_FIELD`. -/
theorem need_cases {α : Type} (x : Option α) :
    (∃ v, x = some v ∧ need x = .ok v) ∨ x = none ∧ need x = .error (.raise .unsetField) := by
  cases x with
  | none => exact .inr ⟨rfl, rfl⟩
  | some v => exact .inl ⟨v, rfl, rfl⟩

/-- An append that fits. -/
theorem append_fits {s : State} {bs : List Byte} (h : s.flen.toNat + bs.length ≤ s.fbSize.val) :
    append s bs = .ok (s.appendBytes bs) := by
  simp [append, Nat.not_lt.mpr h]

/-- An append that does not fit. -/
theorem append_overflows {s : State} {bs : List Byte} (h : s.fbSize.val < s.flen.toNat + bs.length) :
    append s bs = .error (.raise .frameOverflow) := by
  simp [append, h]

/-- `FLEN` after an append that fits: the sum does not wrap. -/
theorem appendBytes_flen_toNat {s : State} {bs : List Byte} (h : s.flen.toNat + bs.length ≤ s.fbSize.val) :
    (s.appendBytes bs).flen.toNat = s.flen.toNat + bs.length := by
  have := s.fbSize.isLt
  simp only [State.appendBytes_flen, BitVec.toNat_add, BitVec.toNat_ofNat]
  omega

/-- What an append that fits does to the frame, and that it does nothing else. -/
theorem appended_appendBytes {s : State} {bs : List Byte} (h : s.flen.toNat + bs.length ≤ s.fbSize.val) :
    Appended s (s.appendBytes bs) bs :=
  ⟨appendBytes_flen_toNat h, fun _ hk => read_writeBytes_inside _ _ _ hk,
    fun _ ha => read_writeBytes_outside _ _ ha, rfl⟩

/-- An append answers the appended state when it fits, else raises `FRAME_OVERFLOW`. -/
theorem append_cases (s : State) (bs : List Byte) :
    (s.flen.toNat + bs.length ≤ s.fbSize.val ∧ append s bs = .ok (s.appendBytes bs))
      ∨ s.fbSize.val < s.flen.toNat + bs.length ∧ append s bs = .error (.raise .frameOverflow) := by
  by_cases h : s.flen.toNat + bs.length ≤ s.fbSize.val
  · exact .inl ⟨h, append_fits h⟩
  · exact .inr ⟨by omega, append_overflows (by omega)⟩

theorem fieldOfKind_eq_ok {k : FieldKind} {fid : BitVec 8} {f : FieldId} :
    fieldOfKind k fid = .ok f ↔ f.id = fid ∧ f.kind = k := by
  rw [← fieldNamed_eq_some]
  unfold fieldOfKind
  constructor
  · intro h
    split at h
    · next g hg =>
      split at h
      · next hk =>
        obtain rfl : g = f := by simpa using h
        exact ⟨hg, hk⟩
      · cases h
    · cases h
  · rintro ⟨h, hk⟩
    simp [h, hk]

/-- `fieldOfKind` answers a register of that id and kind, or raises `BAD_FIELD` because there is none. -/
theorem fieldOfKind_cases (k : FieldKind) (fid : BitVec 8) :
    (∃ f : FieldId, f.id = fid ∧ f.kind = k ∧ fieldOfKind k fid = .ok f)
      ∨ (∀ f : FieldId, f.id = fid → f.kind ≠ k) ∧ fieldOfKind k fid = .error (.raise .badField) := by
  cases h : fieldOfKind k fid with
  | ok f =>
    obtain ⟨h1, h2⟩ := fieldOfKind_eq_ok.mp h
    exact .inl ⟨f, h1, h2, rfl⟩
  | error e =>
    refine .inr ⟨fun f h1 h2 => ?_, ?_⟩
    · rw [fieldOfKind_eq_ok.mpr ⟨h1, h2⟩] at h
      cases h
    · unfold fieldOfKind at h
      split at h
      · split at h
        · cases h
        · exact h ▸ rfl
      · exact h ▸ rfl

/-- A command in a block that is ready does what its body says. -/
theorem runCommand_ready {body : State → Except Abandon State} {s : State} (h : Ready s) :
    runCommand body s =
      match body s with
      | .ok t => .next t
      | .error (.raise c) => .next (s.takeFault c)
      | .error (.stop r) => .fault r := by
  simp only [runCommand, h.1, h.2]
  rfl

theorem runCommand_ok {body : State → Except Abandon State} {s t : State} (h : Ready s) (hb : body s = .ok t) :
    runCommand body s = .next t := by rw [runCommand_ready h, hb]

theorem runCommand_raise {body : State → Except Abandon State} {s : State} {c : FaultCode} (h : Ready s)
    (hb : body s = .error (.raise c)) : runCommand body s = .next (s.takeFault c) := by rw [runCommand_ready h, hb]

theorem runCommand_stop {body : State → Except Abandon State} {s : State} {r : Fault} (h : Ready s)
    (hb : body s = .error (.stop r)) : runCommand body s = .fault r := by rw [runCommand_ready h, hb]

/-- While `FAULT = 1` a command is discarded (R155). -/
theorem runCommand_discards {body : State → Except Abandon State} {s : State} (h : s.wasReset = true)
    (hf : s.fault = true) : runCommand body s = .next s := by
  simp [runCommand, h, hf]

/-- Before the first reset a command has no step (R172). -/
theorem runCommand_neverReset {body : State → Except Abandon State} {s : State} (h : s.wasReset = false) :
    runCommand body s = .fault .neverReset := by
  simp [runCommand, h]

/-- Everything a command that answers a next state can do: it is discarded, it completes, or it faults. -/
theorem runCommand_next {body : State → Except Abandon State} {s t : State} (h : runCommand body s = .next t) :
    (s.wasReset = true ∧ s.fault = true ∧ t = s)
      ∨ (Ready s ∧ body s = .ok t)
      ∨ ∃ c, Ready s ∧ body s = .error (.raise c) ∧ t = s.takeFault c := by
  unfold runCommand at h
  split at h
  · cases h
  · next hr =>
    have hr : s.wasReset = true := by simpa using hr
    split at h
    · next hf =>
      cases h
      exact .inl ⟨hr, hf, rfl⟩
    · next hf =>
      have hs : Ready s := ⟨hr, by simpa using hf⟩
      split at h
      · next t' hb =>
        cases h
        exact .inr (.inl ⟨hs, hb⟩)
      · next c hb =>
        cases h
        exact .inr (.inr ⟨c, hs, hb, rfl⟩)
      · cases h

end Sys2Proof.Machine
end

