-- ==== Sys2Proof/Laws/Exec.lean ====
section
/-! SUPPORT. What the meanings have in common: every command is `runCommand` of a body, and the body of an appending
command is its header bytes followed by one append. -/

namespace Sys2Proof.Machine

/-- The body of each command. -/
def bodyOf : Instr → State → Except Abandon State
  | .setf fid val, s => setfBody fid val s
  | .csumCompute base len cw, s => csumComputeBody base len cw s
  | .csumVerify base len, s => csumVerifyBody base len s
  | .frameClear, s => .ok s.clearFrame
  | i, s => do append s (← headerBytes i s.regs)

/-- Every command runs its body in the one frame of R154, R155, R172. -/
theorem exec_eq_runCommand (i : Instr) (s : State) : exec i s = runCommand (bodyOf i) s := by
  cases i <;> rfl

/-- The body of an appending command: its header bytes, then one append. -/
theorem bodyOf_appends {i : Instr} (h : i.appends = true) (s : State) :
    bodyOf i s = (headerBytes i s.regs >>= append s) := by
  cases i <;> first | rfl | cases h

/-- An appending command whose bytes are known and fit. -/
theorem exec_append_fits {i : Instr} {s : State} {bs : List Byte} (hi : i.appends = true) (hs : Ready s)
    (hb : headerBytes i s.regs = .ok bs) (hfit : s.flen.toNat + bs.length ≤ s.fbSize.val) :
    exec i s = .next (s.appendBytes bs) := by
  rw [exec_eq_runCommand]
  exact runCommand_ok hs (by rw [bodyOf_appends hi, hb, bind_ok, append_fits hfit])

/-- An appending command whose bytes are known and do not fit. -/
theorem exec_append_overflows {i : Instr} {s : State} {bs : List Byte} (hi : i.appends = true) (hs : Ready s)
    (hb : headerBytes i s.regs = .ok bs) (hbig : s.fbSize.val < s.flen.toNat + bs.length) :
    exec i s = .next (s.takeFault .frameOverflow) := by
  rw [exec_eq_runCommand]
  exact runCommand_raise hs (by rw [bodyOf_appends hi, hb, bind_ok, append_overflows hbig])

/-- An appending command that faults before its append. -/
theorem exec_append_raises {i : Instr} {s : State} {c : FaultCode} (hi : i.appends = true) (hs : Ready s)
    (hb : headerBytes i s.regs = .error (.raise c)) : exec i s = .next (s.takeFault c) := by
  rw [exec_eq_runCommand]
  exact runCommand_raise hs (by rw [bodyOf_appends hi, hb, bind_error])

/-! The registers that each serializer can name, with the octets it appends (R85, R86). -/

theorem serMacBytes_ethDst (r : FieldRegs) : serMacBytes 0x00#8 r = (need r.ethDst >>= fun v => .ok (macBytes v)) := by
  have h : serMacBytes 0x00#8 r = (need r.ethDst >>= fun v => .ok (macBytes (v.setWidth 48))) := rfl
  simpa only [BitVec.setWidth_eq] using h

theorem serMacBytes_ethSrc (r : FieldRegs) : serMacBytes 0x01#8 r = (need r.ethSrc >>= fun v => .ok (macBytes v)) := by
  have h : serMacBytes 0x01#8 r = (need r.ethSrc >>= fun v => .ok (macBytes (v.setWidth 48))) := rfl
  simpa only [BitVec.setWidth_eq] using h

theorem serMacBytes_arpSha (r : FieldRegs) : serMacBytes 0x18#8 r = (need r.arpSha >>= fun v => .ok (macBytes v)) := by
  have h : serMacBytes 0x18#8 r = (need r.arpSha >>= fun v => .ok (macBytes (v.setWidth 48))) := rfl
  simpa only [BitVec.setWidth_eq] using h

theorem serMacBytes_arpTha (r : FieldRegs) : serMacBytes 0x1A#8 r = (need r.arpTha >>= fun v => .ok (macBytes v)) := by
  have h : serMacBytes 0x1A#8 r = (need r.arpTha >>= fun v => .ok (macBytes (v.setWidth 48))) := rfl
  simpa only [BitVec.setWidth_eq] using h

theorem serIp4Bytes_arpSpa (r : FieldRegs) : serIp4Bytes 0x19#8 r = (need r.arpSpa >>= fun v => .ok (ip4Bytes v)) := by
  have h : serIp4Bytes 0x19#8 r = (need r.arpSpa >>= fun v => .ok (ip4Bytes (v.setWidth 32))) := rfl
  simpa only [BitVec.setWidth_eq] using h

theorem serIp4Bytes_arpTpa (r : FieldRegs) : serIp4Bytes 0x1B#8 r = (need r.arpTpa >>= fun v => .ok (ip4Bytes v)) := by
  have h : serIp4Bytes 0x1B#8 r = (need r.arpTpa >>= fun v => .ok (ip4Bytes (v.setWidth 32))) := rfl
  simpa only [BitVec.setWidth_eq] using h

theorem serIp4Bytes_ipSrc (r : FieldRegs) : serIp4Bytes 0x29#8 r = (need r.ipSrc >>= fun v => .ok (ip4Bytes v)) := by
  have h : serIp4Bytes 0x29#8 r = (need r.ipSrc >>= fun v => .ok (ip4Bytes (v.setWidth 32))) := rfl
  simpa only [BitVec.setWidth_eq] using h

theorem serIp4Bytes_ipDst (r : FieldRegs) : serIp4Bytes 0x2A#8 r = (need r.ipDst >>= fun v => .ok (ip4Bytes v)) := by
  have h : serIp4Bytes 0x2A#8 r = (need r.ipDst >>= fun v => .ok (ip4Bytes (v.setWidth 32))) := rfl
  simpa only [BitVec.setWidth_eq] using h

theorem serMacBytes_badField {fid : BitVec 8} (h : fid ∉ [0x00#8, 0x01#8, 0x18#8, 0x1A#8]) (r : FieldRegs) :
    serMacBytes fid r = .error (.raise .badField) := by
  unfold serMacBytes
  rcases fieldOfKind_cases .mac fid with ⟨f, rfl, hk, -⟩ | ⟨-, hf⟩
  · exact absurd (by cases f <;> first | decide | cases hk) h
  · rw [hf]
    rfl

theorem serIp4Bytes_badField {fid : BitVec 8} (h : fid ∉ [0x19#8, 0x1B#8, 0x29#8, 0x2A#8]) (r : FieldRegs) :
    serIp4Bytes fid r = .error (.raise .badField) := by
  unfold serIp4Bytes
  rcases fieldOfKind_cases .ip4 fid with ⟨f, rfl, hk, -⟩ | ⟨-, hf⟩
  · exact absurd (by cases f <;> first | decide | cases hk) h
  · rw [hf]
    rfl

/-- What the body of a `CSUM.*` command can do with its region. -/
theorem admitRegion_eq_ok {s : State} {base len : BitVec 16} :
    admitRegion s base len = .ok () ↔ len.getLsbD 0 = false ∧ base.toNat + len.toNat ≤ s.flen.toNat := by
  unfold admitRegion
  split
  · simp_all
  · split <;> simp_all

theorem admitRegion_odd {s : State} {base len : BitVec 16} (h : len.getLsbD 0 = true) :
    admitRegion s base len = .error (.raise .oddLength) := by simp [admitRegion, h]

theorem admitRegion_outside {s : State} {base len : BitVec 16} (he : len.getLsbD 0 = false)
    (h : s.flen.toNat < base.toNat + len.toNat) : admitRegion s base len = .error (.raise .badRegion) := by
  unfold admitRegion
  rw [if_neg (by rw [he]; exact Bool.false_ne_true), if_pos h]

theorem admitWord_eq_ok {len : BitVec 16} {cw : BitVec 8} :
    admitWord len cw = .ok () ↔ 2 * cw.toNat + 2 ≤ len.toNat := by
  unfold admitWord
  split <;> simp_all

theorem admitWord_outside {len : BitVec 16} {cw : BitVec 8} (h : len.toNat < 2 * cw.toNat + 2) :
    admitWord len cw = .error (.raise .badRegion) := by simp [admitWord, h]

/-- `LEN[0] = 0` says that `LEN` is even. -/
theorem getLsbD_zero_eq_false {len : BitVec 16} : len.getLsbD 0 = false ↔ len.toNat % 2 = 0 := by
  rw [BitVec.getLsbD, Nat.testBit_zero]
  simp

theorem getLsbD_zero_eq_true {len : BitVec 16} : len.getLsbD 0 = true ↔ len.toNat % 2 = 1 := by
  rw [BitVec.getLsbD, Nat.testBit_zero]
  simp

end Sys2Proof.Machine
end

