-- ==== Sys2Proof/Laws/PerInstr.lean ====
section
/-! SUPPORT. Per instruction: its word is well formed, selecting the row of the opcode table that carries its mnemonic
(rules R50, R58), and no bit outside its operands differs from that row's pattern. -/

namespace Sys2Proof.Laws.WordSelectsRow

open Sys2Proof

/-- The instruction's word selects a row of the table with the instruction's mnemonic. -/
def Statement (i : Instr) : Prop := ∃ r ∈ opcodeTable, r.mnemonic = i.mnemonic ∧ r.selectedBy (encode i) = true

/-- The upper 16 bits of a region immediate are clear, so the mask of format R finds nothing. -/
theorem regionImm_masked (len base : BitVec 16) :
    ((0#16 ++ len ++ base : BitVec (16 + 16 + 16)) : BitVec 48) &&& 0xFFFF00000000#48 = 0#48 := by
  have h : (0xFFFF00000000#48) = ((0xFFFF#16 ++ 0#16 ++ 0#16 : BitVec (16 + 16 + 16)) : BitVec 48) := rfl
  rw [h]
  show (0#16 ++ len ++ base : BitVec (16 + 16 + 16)) &&& (0xFFFF#16 ++ 0#16 ++ 0#16) = 0#48
  rw [BitVec.and_append, BitVec.and_append]
  simp

/-- The upper 40 bits of a byte immediate are clear, so the mask of format B finds nothing. -/
theorem byteImm_masked (byte : Byte) :
    ((0#40 ++ byte : BitVec (40 + 8)) : BitVec 48) &&& 0xFFFFFFFFFF00#48 = 0#48 := by
  have h : (0xFFFFFFFFFF00#48) = ((0xFFFFFFFFFF#40 ++ 0#8 : BitVec (40 + 8)) : BitVec 48) := rfl
  rw [h]
  show (0#40 ++ byte : BitVec (40 + 8)) &&& (0xFFFFFFFFFF#40 ++ 0#8) = 0#48
  rw [BitVec.and_append]
  simp

theorem setf (fid : BitVec 8) (val : BitVec 48) : Statement (.setf fid val) :=
  ⟨⟨"SETF", 0x0100000000000000#64, 0xFF00000000000000#64⟩, by decide, rfl, (selectedBy_iff _ _).mpr (by
    rw [encode, opField_wordOf, aField_wordOf, immField_wordOf]
    exact ⟨by decide, BitVec.and_zero, BitVec.and_zero⟩)⟩

theorem serMac (fid : BitVec 8) : Statement (.serMac fid) :=
  ⟨⟨"SER.MAC", 0x1000000000000000#64, 0xFF00FFFFFFFFFFFF#64⟩, by decide, rfl, (selectedBy_iff _ _).mpr (by
    rw [encode, opField_wordOf, aField_wordOf, immField_wordOf]
    exact ⟨by decide, BitVec.and_zero, by decide⟩)⟩

theorem serIp4 (fid : BitVec 8) : Statement (.serIp4 fid) :=
  ⟨⟨"SER.IP4", 0x1100000000000000#64, 0xFF00FFFFFFFFFFFF#64⟩, by decide, rfl, (selectedBy_iff _ _).mpr (by
    rw [encode, opField_wordOf, aField_wordOf, immField_wordOf]
    exact ⟨by decide, BitVec.and_zero, by decide⟩)⟩

theorem packEth : Statement .packEth := by unfold Statement; decide

theorem packArph : Statement .packArph := by unfold Statement; decide

theorem packArpp : Statement .packArpp := by unfold Statement; decide

theorem packIp4 : Statement .packIp4 := by unfold Statement; decide

theorem packUdp : Statement .packUdp := by unfold Statement; decide

theorem csumCompute (base len : BitVec 16) (cw : BitVec 8) : Statement (.csumCompute base len cw) :=
  ⟨⟨"CSUM.COMPUTE", 0x3000000000000000#64, 0xFF00FFFF00000000#64⟩, by decide, rfl, (selectedBy_iff _ _).mpr (by
    rw [encode, opField_wordOf, aField_wordOf, immField_wordOf]
    exact ⟨by decide, BitVec.and_zero, regionImm_masked len base⟩)⟩

theorem csumVerify (base len : BitVec 16) : Statement (.csumVerify base len) :=
  ⟨⟨"CSUM.VERIFY", 0x3100000000000000#64, 0xFFFFFFFF00000000#64⟩, by decide, rfl, (selectedBy_iff _ _).mpr (by
    rw [encode, opField_wordOf, aField_wordOf, immField_wordOf]
    exact ⟨by decide, by decide, regionImm_masked len base⟩)⟩

theorem frameClear : Statement .frameClear := by unfold Statement; decide

theorem framePutb (byte : Byte) : Statement (.framePutb byte) :=
  ⟨⟨"FRAME.PUTB", 0x4100000000000000#64, 0xFFFFFFFFFFFFFF00#64⟩, by decide, rfl, (selectedBy_iff _ _).mpr (by
    rw [encode, opField_wordOf, aField_wordOf, immField_wordOf]
    exact ⟨by decide, by decide, byteImm_masked byte⟩)⟩

end Sys2Proof.Laws.WordSelectsRow
end

