-- ==== Sys2Proof/Laws/Step.lean ====
section
/-! SUPPORT. The step, said once: what the host's next move can be and what it does; and runs of steps. -/

namespace Sys2Proof.Machine

theorem step_idle {s : State} (h : s.moves = []) : step s = .next s := by
  simp only [step, takeMove, h]

theorem step_move {s : State} {m : HostMove} {rest : List HostMove} (h : s.moves = m :: rest) :
    step s = hostMove m (s.setMoves rest) := by
  simp only [step, takeMove, h]

/-- Every step that answers a next state: idle, a reset, a read, a command that decodes, or an illegal word. -/
theorem step_cases {s t : State} (h : step s = .next t) :
    (s.moves = [] ∧ t = s)
      ∨ ∃ rest, (s.moves = .reset :: rest ∧ t = (s.setMoves rest).applyReset)
        ∨ (∃ a, s.moves = .read a :: rest ∧ t = readPort a (s.setMoves rest))
        ∨ (∃ w i, s.moves = .command w :: rest ∧ decode w = .command i ∧ exec i (s.setMoves rest) = .next t)
        ∨ ∃ w why, s.moves = .command w :: rest ∧ decode w = .illegal why
            ∧ illegalCommand (s.setMoves rest) = .next t := by
  cases hm : s.moves with
  | nil =>
    rw [step_idle hm] at h
    cases h
    exact .inl ⟨rfl, rfl⟩
  | cons m rest =>
    rw [step_move hm] at h
    refine .inr ⟨rest, ?_⟩
    cases m with
    | reset =>
      cases h
      exact .inl ⟨rfl, rfl⟩
    | read a =>
      cases h
      exact .inr (.inl ⟨a, rfl, rfl⟩)
    | command w =>
      simp only [hostMove, issueWord] at h
      split at h
      · next i hd => exact .inr (.inr (.inl ⟨w, i, rfl, hd, h⟩))
      · next why hd => exact .inr (.inr (.inr ⟨w, why, rfl, hd, h⟩))

/-- What a host read changes: the host's record, and the draw counter when the byte is a free draw. -/
theorem readPort_cases (a : BitVec 16) (s : State) :
    (∃ b, specifiedByte s a = some b ∧ readPort a s = s.recordRead a b)
      ∨ specifiedByte s a = none ∧ readPort a s = (s.recordRead a (Config.freeByte s.draws)).countDraw := by
  unfold readPort
  cases specifiedByte s a with
  | some b => exact .inl ⟨b, rfl, rfl⟩
  | none => exact .inr ⟨rfl, rfl⟩

theorem run_zero (s : State) : Host.Core.run core 0 s = .next s := rfl

/-- A run of any machine that begins with a step to `t` goes on from `t`. -/
theorem run_of_step (M : Host.Core) (n : Nat) {s t : M.State} (h : M.step s = .next t) :
    M.run (n + 1) s = M.run n t := by
  simp only [Host.Core.run, h]

/-- A run of the block that begins with a step to `t` goes on from `t`. -/
theorem run_succ {s t : State} (n : Nat) (h : step s = .next t) :
    Host.Core.run core (n + 1) s = Host.Core.run core n t := run_of_step core n h

/-- A list of commands after another: the second goes on where the first ends. -/
theorem execAll_append {xs : List Instr} {s u : State} (ys : List Instr) (h : execAll xs s = .next u) :
    execAll (xs ++ ys) s = execAll ys u := by
  induction xs generalizing s with
  | nil =>
    cases h
    rfl
  | cons x xs ih =>
    simp only [List.cons_append, execAll] at h ⊢
    split at h
    · exact ih h
    · cases h
    · cases h

end Sys2Proof.Machine
end

