-- ==== Sys2Proof/Tests/Slice0.lean ====
section
/-! SUPPORT. The model's own tests. Every expected value is taken from `95_test_vectors.md` (the section is named) or
worked out by hand from the rule named. The theorems named `witness_…` show states and operands that meet the
hypotheses of a statement of Certificates/Slice0/Obligations.lean, clause by clause. -/

namespace Sys2Proof.Tests

open Sys2Proof Sys2Proof.Machine

/-! ### Helpers -/

/-- The next state of an outcome, if it has one. -/
def nextOf : Result → Option State
  | .next t => some t
  | .fault _ => none
  | .refused _ => none

/-- What a command leaves at the ports. -/
def portsAfter (r : Result) : Option Ports := (nextOf r).map ports

/-- An expected trace, in the order of section 9: `FLEN`, `FAULT`, `ERR`, `RES`, `VOK`. -/
def trace (flen : BitVec 16) (fault : Bool) (err : BitVec 4) (res : BitVec 16) (vok : Bool) : Option Ports :=
  some ⟨res, vok, fault, err, flen⟩

/-- The composed frame that a command leaves. -/
def frameOf (r : Result) : Option (List Byte) := (nextOf r).bind frame

/-- A state after reset with the field registers `r`. -/
def withRegs (r : FieldRegs) : State := { State.reset with regs := r }

/-- A state after reset whose frame is `bs`. -/
def withFrame (bs : List Byte) : State := State.reset.appendBytes bs

/-- `s` with the fill length `n`; the bytes below it need not have been written. -/
def atFill (s : State) (n : BitVec 16) : State := { s with flen := n }

/-- The host has the one move `m` to make. -/
def facing (m : HostMove) (s : State) : State := s.setMoves [m]

/-- `s` after a fault with code 4. -/
def faulted (s : State) : State := s.takeFault .unsetField

/-- A block that has never been reset. -/
def neverReset : State := { State.reset with wasReset := false }

def linkRegs : FieldRegs :=
  { FieldRegs.reset with ethDst := some 0xAABBCCDDEEFF, ethSrc := some 0x112233445566, ethType := some 0x0806 }

def arpRegs : FieldRegs :=
  { FieldRegs.reset with
    arpHtype := some 1, arpPtype := some 0x0800, arpOper := some 2
    arpSha := some 0xAABBCCDDEEFF, arpSpa := some 0xC0A80101, arpTha := some 0x112233445566
    arpTpa := some 0xC0A80102 }

def ip4Regs : FieldRegs :=
  { FieldRegs.reset with
    ipDscp := some 0x2E, ipEcn := some 1, ipTotlen := some 0x54, ipId := some 0xBEEF, ipFlags := some 5
    ipFrag := some 0x1ABC, ipTtl := some 1, ipProto := some 6, ipCsum := some 0x1234, ipSrc := some 0x0A000001
    ipDst := some 0xFFFFFFFF }

def udpRegs : FieldRegs := { FieldRegs.reset with udpSport := some 12345, udpDport := some 53 }

/-- The 20 bytes that every row of section 7 starts from. -/
def canonicalHeader : List Byte :=
  [0x45, 0x00, 0x00, 0x73, 0x00, 0x00, 0x40, 0x00, 0x40, 0x11, 0xB8, 0x61, 0xC0, 0xA8, 0x00, 0x01,
   0xC0, 0xA8, 0x00, 0xC7]

/-- The state that every row of section 7 starts from. -/
def section7 : State := { withFrame canonicalHeader with res := 0x1111, vok := true }

/-! ### WellFormed: an ill-formed word for each check (section 3.2), and the twelve patterns -/

theorem test_unassigned_opcode_is_ill_formed :
    wordWellFormed 0x0000000000000000 = false ∧ wordWellFormed 0xFFFFFFFFFFFFFFFF = false
    ∧ wordWellFormed 0x0200000000000000 = false ∧ wordWellFormed 0x2500000000000000 = false := by decide

theorem test_operand_of_format_n_is_ill_formed :
    wordWellFormed 0x2000000000000001 = false ∧ wordWellFormed 0x2301000000000000 = false
    ∧ wordWellFormed 0x4001000000000000 = false := by decide

theorem test_immediate_of_format_f_is_ill_formed :
    wordWellFormed 0x1000000000000001 = false ∧ wordWellFormed 0x1129800000000000 = false := by decide

theorem test_high_bits_of_format_r_are_ill_formed :
    wordWellFormed 0x3005000100140000 = false ∧ wordWellFormed 0x3101000000140000 = false := by decide

theorem test_high_bits_of_format_b_are_ill_formed :
    wordWellFormed 0x4100000000000100 = false ∧ wordWellFormed 0x4101000000000068 = false := by decide

theorem test_every_pattern_is_well_formed : ∀ r ∈ opcodeTable, wordWellFormed r.pattern = true := by decide

/-! ### Decode: the words of section 3.1, and that the illegal ones are named -/

theorem test_decode_setf :
    decode 0x0100AABBCCDDEEFF = .command (.setf 0x00 0xAABBCCDDEEFF)
    ∧ decode 0x01190000C0A80101 = .command (.setf 0x19 0x0000C0A80101)
    ∧ decode 0x0130000000003039 = .command (.setf 0x30 0x000000003039) := by decide

theorem test_decode_serializers :
    decode 0x1001000000000000 = .command (.serMac 0x01) ∧ decode 0x1129000000000000 = .command (.serIp4 0x29) := by
  decide

theorem test_decode_packers :
    decode 0x2000000000000000 = .command .packEth ∧ decode 0x2100000000000000 = .command .packArph
    ∧ decode 0x2200000000000000 = .command .packArpp ∧ decode 0x2300000000000000 = .command .packIp4
    ∧ decode 0x2400000000000000 = .command .packUdp := by decide

theorem test_decode_checksum :
    decode 0x300500000014000E = .command (.csumCompute 14 20 5)
    ∧ decode 0x310000000014000E = .command (.csumVerify 14 20) := by decide

theorem test_decode_frame :
    decode 0x4000000000000000 = .command .frameClear ∧ decode 0x41000000000000FF = .command (.framePutb 0xFF) := by
  decide

/-- R51, R55: a field id that names no register is no encoding error. -/
theorem test_decode_unknown_field_id : decode 0x01FF000000000000 = .command (.setf 0xFF 0) := by decide

theorem test_decode_names_why_a_word_is_illegal :
    decode 0x3200000000000000 = .illegal (.unassignedOpcode 0x32)
    ∧ decode 0x4100000000000100 = .illegal (.reservedBitSet 0x41) := by decide

/-- The host's numbering of a row's bits: bit 63 is the most significant bit of `OP`. -/
theorem test_table_word : decodeTableWord 64 0x3005000000140000 = some (.csumCompute 0 20 5)
    ∧ decodeTableWord 64 0x2000000000000001 = none := by decide

theorem test_placed_word_runs :
    nextOf (step (State.reset.withFetchWord 64 0x4100000000000068)) = nextOf (exec (.framePutb 0x68) State.reset) := by
  decide +kernel

/-! ### The commands, one step each -/

theorem test_setf_writes :
    (nextOf (exec (.setf 0x02 0x86DD) State.reset)).map (·.regs.ethType) = some (some 0x86DD)
    ∧ (nextOf (exec (.setf 0x25 0x1FFF) State.reset)).map (·.regs.ipFrag) = some (some 0x1FFF) := by decide +kernel

/-- Section 4: a value outside the closed set, a value too wide, and an unknown id with a value too wide. -/
theorem test_setf_refuses :
    portsAfter (exec (.setf 0x11 0x86DD) State.reset) = trace 0 true 3 0 false
    ∧ portsAfter (exec (.setf 0x21 4) State.reset) = trace 0 true 3 0 false
    ∧ portsAfter (exec (.setf 0xFF 0xFFFFFFFFFFFF) State.reset) = trace 0 true 2 0 false := by decide +kernel

theorem test_ser_mac : frameOf (exec (.serMac 0x01) (withRegs linkRegs)) = some [0x11, 0x22, 0x33, 0x44, 0x55, 0x66] := by
  decide +kernel

/-- Section 5: the wrong kind, an UNSET register in a full buffer, and one byte too many. -/
theorem test_ser_mac_refuses :
    portsAfter (exec (.serMac 0x29) State.reset) = trace 0 true 2 0 false
    ∧ portsAfter (exec (.serMac 0x00) (atFill State.reset 2048)) = trace 2048 true 4 0 false
    ∧ portsAfter (exec (.serMac 0x00) (atFill (withRegs linkRegs) 2043)) = trace 2043 true 5 0 false := by
  decide +kernel

theorem test_ser_ip4 : frameOf (exec (.serIp4 0x1B) (withRegs arpRegs)) = some [0xC0, 0xA8, 0x01, 0x02] := by
  decide +kernel

theorem test_ser_ip4_refuses :
    portsAfter (exec (.serIp4 0x00) (withRegs linkRegs)) = trace 0 true 2 0 false := by decide +kernel

theorem test_pack_eth :
    frameOf (exec .packEth (withRegs linkRegs))
      = some [0xAA, 0xBB, 0xCC, 0xDD, 0xEE, 0xFF, 0x11, 0x22, 0x33, 0x44, 0x55, 0x66, 0x08, 0x06] := by decide +kernel

/-- Section 6.6: the last place a link header fits, and the first where it does not. -/
theorem test_pack_eth_at_the_edge :
    portsAfter (exec .packEth (atFill (withRegs linkRegs) 2034)) = trace 2048 false 0 0 false
    ∧ portsAfter (exec .packEth (atFill (withRegs linkRegs) 2035)) = trace 2035 true 5 0 false := by decide +kernel

theorem test_pack_arph :
    frameOf (exec .packArph (withRegs arpRegs)) = some [0x00, 0x01, 0x08, 0x00, 0x06, 0x04, 0x00, 0x02] := by
  decide +kernel

theorem test_pack_arpp :
    frameOf (exec .packArpp (withRegs arpRegs))
      = some [0xAA, 0xBB, 0xCC, 0xDD, 0xEE, 0xFF, 0xC0, 0xA8, 0x01, 0x01, 0x11, 0x22, 0x33, 0x44, 0x55, 0x66,
              0xC0, 0xA8, 0x01, 0x02] := by decide +kernel

/-- Section 6.4, row 5: every register of the group differs from its default. -/
theorem test_pack_ip4 :
    frameOf (exec .packIp4 (withRegs ip4Regs))
      = some [0x45, 0xB9, 0x00, 0x54, 0xBE, 0xEF, 0xBA, 0xBC, 0x01, 0x06, 0x12, 0x34, 0x0A, 0x00, 0x00, 0x01,
              0xFF, 0xFF, 0xFF, 0xFF] := by decide +kernel

/-- Section 6.4, row 1: the document's defaults. -/
theorem test_pack_ip4_defaults :
    frameOf (exec .packIp4 (withRegs { FieldRegs.reset with
        ipProto := some 17, ipSrc := some 0xC0A80101, ipDst := some 0xC0A80102 }))
      = some [0x45, 0x00, 0x00, 0x14, 0x00, 0x01, 0x00, 0x00, 0x40, 0x11, 0x00, 0x00, 0xC0, 0xA8, 0x01, 0x01,
              0xC0, 0xA8, 0x01, 0x02] := by decide +kernel

theorem test_pack_udp :
    frameOf (exec .packUdp (withRegs udpRegs)) = some [0x30, 0x39, 0x00, 0x35, 0x00, 0x08, 0x00, 0x00] := by
  decide +kernel

theorem test_pack_udp_unset :
    portsAfter (exec .packUdp (withRegs { FieldRegs.reset with udpSport := some 1 })) = trace 0 true 4 0 false := by
  decide +kernel

/-- Section 7: the checksum field masked, the last word masked, and a masked word outside the region. -/
theorem test_csum_compute :
    portsAfter (exec (.csumCompute 0 20 5) section7) = trace 20 false 0 0x479E false
    ∧ portsAfter (exec (.csumCompute 0 20 9) section7) = trace 20 false 0 0xFF38 false
    ∧ portsAfter (exec (.csumCompute 0 20 10) section7) = trace 20 true 7 0x1111 true := by decide +kernel

/-- Section 7: the whole header, an odd base, the empty region at `FLEN`, and a sum of offsets past 16 bits. -/
theorem test_csum_verify :
    portsAfter (exec (.csumVerify 0 20) section7) = trace 20 false 0 0xFFFF true
    ∧ portsAfter (exec (.csumVerify 1 2) section7) = trace 20 false 0 0x0000 false
    ∧ portsAfter (exec (.csumVerify 20 0) section7) = trace 20 false 0 0x0000 false
    ∧ portsAfter (exec (.csumVerify 0xFFFF 0xFFFE) section7) = trace 20 true 7 0x1111 true := by decide +kernel

/-- Section 7: odd and too long is `ODD_LENGTH`, the lower code. -/
theorem test_csum_verify_odd :
    portsAfter (exec (.csumVerify 0 21) section7) = trace 20 true 6 0x1111 true := by decide +kernel

theorem test_frame_clear : nextOf (exec .frameClear section7) = some { section7 with flen := 0 } := by decide +kernel

/-- Section 8: discarded while `FAULT = 1`. -/
theorem test_frame_clear_discarded :
    portsAfter (exec .frameClear (faulted (atFill State.reset 14))) = trace 14 true 4 0 false := by decide +kernel

theorem test_frame_putb :
    frameOf (exec (.framePutb 0x68) (withFrame [1, 2])) = some [1, 2, 0x68]
    ∧ portsAfter (exec (.framePutb 0xFF) (atFill State.reset 2047)) = trace 2048 false 0 0 false := by decide +kernel

theorem test_frame_putb_full :
    portsAfter (exec (.framePutb 0) (atFill (State.resetOfSize 42) 42)) = trace 42 true 5 0 false := by decide +kernel

/-! ### The fold (sections 2.1 to 2.3) -/

theorem test_fold_words :
    fold [] = some 0 ∧ fold [0x12, 0x34] = some 0x1234 ∧ fold [0xFF, 0xFF, 0x00, 0x01] = some 0x0001
    ∧ fold [0x80, 0x00, 0x80, 0x00, 0x00, 0x01] = some 0x0002 ∧ fold [1] = none := by decide +kernel

theorem test_fold_second_pass :
    fold [0xFF, 0xFF, 0xFF, 0xFF, 0x00, 0x01] = some 0x0001 ∧ fold [0xFF, 0xFF, 0xFF, 0xFF] = some 0xFFFF := by
  decide +kernel

theorem test_fold_masked :
    foldMasked canonicalHeader 5 = some 0x479E ∧ foldMasked canonicalHeader 0 = some 0xBAFF := by decide +kernel

/-- Section 2.3, corruption: one bit field of the header changed from 0x40 to 0x3F. -/
theorem test_fold_corrupted : fold (canonicalHeader.set 8 0x3F) = some 0xFEFF := by decide +kernel

/-! ### The host's assembler (section 1.6 and program P1) -/

theorem test_parse_mac :
    parseMac "aa:bb:cc:dd:ee:ff".toList = some #v[0xAA, 0xBB, 0xCC, 0xDD, 0xEE, 0xFF]
    ∧ parseMac "11-22-33-44-55-66".toList = some #v[0x11, 0x22, 0x33, 0x44, 0x55, 0x66]
    ∧ parseMac "aa:bb-cc:dd:ee:ff".toList = none ∧ parseMac "aa:bb:cc:dd:ee".toList = none
    ∧ parseMac "gg:bb:cc:dd:ee:ff".toList = none := by decide +kernel

theorem test_parse_ip4 :
    parseIp4 "192.168.1.1".toList = some #v[192, 168, 1, 1] ∧ parseIp4 "1.2.3".toList = none
    ∧ parseIp4 "1.2.3.256".toList = none ∧ parseIp4 "1..2.3".toList = none := by decide +kernel

/-- Program P1, words 1 to 3. -/
theorem test_expand_link :
    expand (.link "aa:bb:cc:dd:ee:ff".toList "11:22:33:44:55:66".toList 0x0806)
      = some [.setf 0x00 0xAABBCCDDEEFF, .setf 0x01 0x112233445566, .setf 0x02 0x0806] := by decide +kernel

/-- R134: a text that is malformed emits no command. -/
theorem test_expand_malformed :
    expand (.ipv4 "192.168.1.1".toList "192.168.1".toList 17) = none := by decide +kernel

/-- R123: the commands of program P1, words 11 to 14, and one payload byte. -/
theorem test_compose_commands :
    composeCommands [.packEth, .packArph, .packArpp] [0x68]
      = [.frameClear, .packEth, .packArph, .packArpp, .framePutb 0x68] := by decide

/-! ### The host's channel (rules R138 to R145) -/

/-- The channels of a host that has opened one channel. -/
def oneOpen : ChannelWorld := (openChannel .packet .raw .arp .granted ChannelWorld.empty).2

/-- A host with a channel that was opened and closed. -/
def oneClosed : ChannelWorld := closeChannel 0 oneOpen

/-- R139, R143: a failed open constructs no channel, and a handle granted to it has been given back. -/
theorem test_open_fails :
    (openChannel .packet .raw .arp (.refused 1) ChannelWorld.empty).1 = .error (.openFailed 1)
    ∧ (openChannel .packet .raw .arp (.abandoned 1) ChannelWorld.empty).2.channels = []
    ∧ (openChannel .packet .raw .arp (.abandoned 1) ChannelWorld.empty).2.released = [0] := ⟨rfl, rfl, rfl⟩

/-- R141, R144: the bytes of the frame reach the kernel; a partial write is a failure. -/
theorem test_send :
    (sendFrame 0 [1, 2, 3, 4, 5, 6, 7] (.wrote 7) oneOpen).1 = .ok 7
    ∧ (sendFrame 0 [1, 2, 3, 4, 5, 6, 7] (.wrote 7) oneOpen).2.written
        = [⟨0, [1, 2, 3, 4, 5, 6], [1, 2, 3, 4, 5, 6, 7]⟩]
    ∧ (sendFrame 0 [1, 2] (.wrote 1) oneOpen).1 = .error (.partialWrite 1) := ⟨rfl, rfl, rfl⟩

/-- R142: closing twice gives the handle back once, and a send after close is an error. -/
theorem test_close :
    oneClosed.released = [0] ∧ (closeChannel 0 oneClosed).released = [0] ∧ oneClosed.live = []
    ∧ (sendFrame 0 [1] (.wrote 1) oneClosed).1 = .error .closed := ⟨rfl, rfl, rfl, rfl⟩

/-- R142, R143: a channel dropped while it is open gives its handle back, and so does a scope whose send fails. -/
theorem test_destruction :
    (dropChannel 0 oneOpen).released = [0] ∧ (dropChannel 0 oneOpen).channels = []
    ∧ (scopedChannel .packet .raw .arp .granted [([1], .failed 5), ([2], .wrote 1)] ChannelWorld.empty).1
        = .error (.sendFailed 5)
    ∧ (scopedChannel .packet .raw .arp .granted [([1], .failed 5)] ChannelWorld.empty).2.released = [0] :=
  ⟨rfl, rfl, rfl, rfl⟩

/-- Network byte order: most significant byte first. -/
theorem test_network_bytes : networkBytes 2 0x0806 = [0x08, 0x06] := by decide

/-- R125, R181: a frame with `FAULT = 1` is not taken. -/
theorem test_take_frame : takeFrame (withFrame [1, 2]) = some [1, 2] ∧ takeFrame (faulted (withFrame [1, 2])) = none := by
  decide +kernel

/-! ### Witnesses: encoding and the step -/

theorem witness_EncodeOfDecode : decode 0x41000000000000FF = .command (.framePutb 0xFF) := by decide

theorem witness_OpcodeRowsAreDisjoint : ∃ r ∈ opcodeTable, r.selectedBy 0x3005000000140000 = true := by decide

theorem witness_StepRunsTheDecodedCommand :
    (facing (.command 0x4000000000000000) State.reset).moves = .command 0x4000000000000000 :: []
    ∧ decode 0x4000000000000000 = .command .frameClear := by decide

/-- One word for each way to be illegal, and a ready block that is handed one. -/
theorem witness_IllegalWordsFault :
    (0x0000000000000000#64).extractLsb' 56 8
        ∉ [0x01#8, 0x10#8, 0x11#8, 0x20#8, 0x21#8, 0x22#8, 0x23#8, 0x24#8, 0x30#8, 0x31#8, 0x40#8, 0x41#8]
    ∧ (0x2301000000000000#64).extractLsb' 56 8 ∈ [0x20#8, 0x21#8, 0x22#8, 0x23#8, 0x24#8, 0x40#8]
    ∧ (0x2301000000000000#64).extractLsb' 48 8 ≠ 0
    ∧ (0x1129800000000000#64).extractLsb' 56 8 ∈ [0x10#8, 0x11#8] ∧ (0x1129800000000000#64).extractLsb' 0 48 ≠ 0
    ∧ (0x3005000100140000#64).extractLsb' 56 8 = 0x30#8 ∧ (0x3005000100140000#64).extractLsb' 32 16 ≠ 0
    ∧ (0x3101000000140000#64).extractLsb' 56 8 = 0x31#8 ∧ (0x3101000000140000#64).extractLsb' 48 8 ≠ 0
    ∧ (0x4100000000000100#64).extractLsb' 56 8 = 0x41#8 ∧ (0x4100000000000100#64).extractLsb' 8 40 ≠ 0
    ∧ (facing (.command 0) State.reset).wasReset = true ∧ (facing (.command 0) State.reset).fault = false
    ∧ (facing (.command 0) State.reset).moves = .command 0 :: [] := by decide

theorem witness_ResetTransitionLeavesResetState : (facing .reset (faulted section7)).moves = .reset :: [] := by decide

theorem witness_InvariantHoldsAtReset : 42 ≤ (42 : Fin 65536).val ∧ 42 ≤ (65535 : Fin 65536).val := by decide

theorem witness_NeverResetBlockHasNoStep :
    (facing (.command 0x4000000000000000) neverReset).wasReset = false
    ∧ (facing (.command 0x4000000000000000) neverReset).moves = .command 0x4000000000000000 :: [] := by decide

/-- The last byte of the frame, and the first offset outside it. -/
theorem witness_ReadPortShowsTheFrame :
    (facing (.read 19) section7).moves = .read 19 :: [] ∧ (facing (.read 19) section7).wasReset = true
    ∧ (19 : BitVec 16).toNat < section7.flen.toNat ∧ section7.fb.read 19 = some 0xC7
    ∧ (facing (.read 20) section7).moves = .read 20 :: [] ∧ section7.flen.toNat ≤ (20 : BitVec 16).toNat := by
  decide +kernel

/-! ### Witnesses: the commands -/

theorem ready_reset : Ready State.reset := ⟨rfl, rfl⟩

/-- No register has id 0x03; `IP_DSCP` is 6 bits wide, so 64 does not fit and 63 does; 3 is no operation code. -/
theorem witness_SetfWritesOneField :
    Ready State.reset ∧ (∀ f : FieldId, f.id ≠ 0x03) ∧ FieldId.id .ipDscp = 0x20
    ∧ 2 ^ FieldId.width .ipDscp ≤ (64 : BitVec 48).toNat ∧ (63 : BitVec 6).toNat = (63 : BitVec 48).toNat
    ∧ FieldId.legal .ipDscp 63 = true ∧ (3 : BitVec 16).toNat = (3 : BitVec 48).toNat
    ∧ FieldId.legal .arpOper 3 = false :=
  ⟨ready_reset, fun f => by cases f <;> decide, by decide⟩

/-- The wrong kind, an UNSET register, the last fill that fits and the first that does not. -/
theorem witness_SerMacAppendsOctets :
    Ready (withRegs linkRegs) ∧ 0x29#8 ∉ [0x00#8, 0x01#8, 0x18#8, 0x1A#8] ∧ (withRegs linkRegs).regs.arpSha = none
    ∧ (withRegs linkRegs).regs.ethDst = some 0xAABBCCDDEEFF
    ∧ (atFill (withRegs linkRegs) 2042).flen.toNat + 6 ≤ (withRegs linkRegs).fbSize.val
    ∧ (withRegs linkRegs).fbSize.val < (atFill (withRegs linkRegs) 2043).flen.toNat + 6 :=
  ⟨⟨rfl, rfl⟩, by decide⟩

theorem witness_SerIp4AppendsOctets :
    Ready (withRegs arpRegs) ∧ 0x00#8 ∉ [0x19#8, 0x1B#8, 0x29#8, 0x2A#8] ∧ (withRegs arpRegs).regs.ipSrc = none
    ∧ (withRegs arpRegs).regs.arpSpa = some 0xC0A80101
    ∧ (atFill (withRegs arpRegs) 2044).flen.toNat + 4 ≤ (withRegs arpRegs).fbSize.val
    ∧ (withRegs arpRegs).fbSize.val < (atFill (withRegs arpRegs) 2045).flen.toNat + 4 :=
  ⟨⟨rfl, rfl⟩, by decide⟩

theorem witness_PackEthAppendsLinkHeader :
    Ready (withRegs linkRegs) ∧ State.reset.regs.ethSrc = none ∧ linkRegs.ethDst = some 0xAABBCCDDEEFF
    ∧ linkRegs.ethSrc = some 0x112233445566 ∧ linkRegs.ethType = some 0x0806
    ∧ (atFill (withRegs linkRegs) 2034).flen.toNat + 14 ≤ (withRegs linkRegs).fbSize.val
    ∧ (withRegs linkRegs).fbSize.val < (atFill (withRegs linkRegs) 2035).flen.toNat + 14 :=
  ⟨⟨rfl, rfl⟩, by decide⟩

theorem witness_PackArphAppendsResolutionHeader :
    Ready (withRegs arpRegs) ∧ State.reset.regs.arpOper = none ∧ arpRegs.arpHtype = some 0x0001
    ∧ arpRegs.arpPtype = some 0x0800 ∧ arpRegs.arpOper = some 2
    ∧ (atFill (withRegs arpRegs) 2040).flen.toNat + 8 ≤ (withRegs arpRegs).fbSize.val
    ∧ (withRegs arpRegs).fbSize.val < (atFill (withRegs arpRegs) 2041).flen.toNat + 8 :=
  ⟨⟨rfl, rfl⟩, by decide⟩

theorem witness_PackArppAppendsResolutionPayload :
    Ready (withRegs arpRegs) ∧ State.reset.regs.arpTpa = none ∧ arpRegs.arpSha = some 0xAABBCCDDEEFF
    ∧ arpRegs.arpSpa = some 0xC0A80101 ∧ arpRegs.arpTha = some 0x112233445566 ∧ arpRegs.arpTpa = some 0xC0A80102
    ∧ (atFill (withRegs arpRegs) 2028).flen.toNat + 20 ≤ (withRegs arpRegs).fbSize.val
    ∧ (withRegs arpRegs).fbSize.val < (atFill (withRegs arpRegs) 2029).flen.toNat + 20 :=
  ⟨⟨rfl, rfl⟩, by decide⟩

theorem witness_PackIp4AppendsInternetHeader :
    Ready (withRegs ip4Regs) ∧ State.reset.regs.ipProto = none
    ∧ ip4Regs.ipDscp = some 0x2E ∧ ip4Regs.ipEcn = some 1 ∧ ip4Regs.ipTotlen = some 0x54 ∧ ip4Regs.ipId = some 0xBEEF
    ∧ ip4Regs.ipFlags = some 5 ∧ ip4Regs.ipFrag = some 0x1ABC ∧ ip4Regs.ipTtl = some 1 ∧ ip4Regs.ipProto = some 6
    ∧ ip4Regs.ipCsum = some 0x1234 ∧ ip4Regs.ipSrc = some 0x0A000001 ∧ ip4Regs.ipDst = some 0xFFFFFFFF
    ∧ (atFill (withRegs ip4Regs) 2028).flen.toNat + 20 ≤ (withRegs ip4Regs).fbSize.val
    ∧ (withRegs ip4Regs).fbSize.val < (atFill (withRegs ip4Regs) 2029).flen.toNat + 20 :=
  ⟨⟨rfl, rfl⟩, by decide⟩

theorem witness_PackUdpAppendsUdpHeader :
    Ready (withRegs udpRegs) ∧ State.reset.regs.udpDport = none ∧ udpRegs.udpSport = some 12345
    ∧ udpRegs.udpDport = some 53 ∧ udpRegs.udpLen = some 8 ∧ udpRegs.udpCsum = some 0
    ∧ (atFill (withRegs udpRegs) 2040).flen.toNat + 8 ≤ (withRegs udpRegs).fbSize.val
    ∧ (withRegs udpRegs).fbSize.val < (atFill (withRegs udpRegs) 2041).flen.toNat + 8 :=
  ⟨⟨rfl, rfl⟩, by decide⟩

theorem witness_UnsetDefaultedRegisterFaults :
    Ready (withRegs { ip4Regs with ipTtl := none }) ∧ (withRegs { ip4Regs with ipTtl := none }).regs.ipTtl = none
    ∧ Ready (withRegs { udpRegs with udpLen := none }) ∧ (withRegs { udpRegs with udpLen := none }).regs.udpLen = none :=
  ⟨⟨rfl, rfl⟩, rfl, ⟨rfl, rfl⟩, rfl⟩

/-- Every byte of the frame of section 7 has a value. -/
theorem section7_bytes (k : Nat) (h : k < canonicalHeader.length) :
    section7.fb.read ((0 : BitVec 16).toNat + k) = some canonicalHeader[k] := by
  have h20 : k < 20 := h
  interval_cases k <;> rfl

/-- Odd lengths; a region that ends one byte after the frame; a masked word one past the region; and a region that ends
where the frame ends, with the last word masked. -/
theorem witness_CsumComputeFoldsMasked :
    Ready section7 ∧ (1 : BitVec 16).toNat % 2 = 1
    ∧ (20 : BitVec 16).toNat % 2 = 0 ∧ section7.flen.toNat < (1 : BitVec 16).toNat + (20 : BitVec 16).toNat
    ∧ (20 : BitVec 16).toNat < 2 * (10 : BitVec 8).toNat + 2
    ∧ (0 : BitVec 16).toNat + (20 : BitVec 16).toNat ≤ section7.flen.toNat
    ∧ 2 * (9 : BitVec 8).toNat + 2 ≤ (20 : BitVec 16).toNat ∧ canonicalHeader.length = (20 : BitVec 16).toNat
    ∧ ∀ k (h : k < canonicalHeader.length), section7.fb.read ((0 : BitVec 16).toNat + k) = some canonicalHeader[k] :=
  ⟨⟨rfl, rfl⟩, by decide, by decide, by decide, by decide, by decide, by decide, by decide, section7_bytes⟩

theorem witness_CsumVerifyFolds :
    Ready section7 ∧ (21 : BitVec 16).toNat % 2 = 1
    ∧ (0 : BitVec 16).toNat % 2 = 0 ∧ section7.flen.toNat < (21 : BitVec 16).toNat + (0 : BitVec 16).toNat
    ∧ (20 : BitVec 16).toNat % 2 = 0 ∧ (0 : BitVec 16).toNat + (20 : BitVec 16).toNat ≤ section7.flen.toNat
    ∧ canonicalHeader.length = (20 : BitVec 16).toNat
    ∧ ∀ k (h : k < canonicalHeader.length), section7.fb.read ((0 : BitVec 16).toNat + k) = some canonicalHeader[k] :=
  ⟨⟨rfl, rfl⟩, by decide, by decide, by decide, by decide, by decide, by decide, section7_bytes⟩

theorem witness_FrameClearEmptiesTheFrame :
    Ready section7 ∧ (faulted section7).wasReset = true ∧ (faulted section7).fault = true := ⟨⟨rfl, rfl⟩, rfl, rfl⟩

/-- The last free place, and a full buffer, in the smallest buffer that R5 admits. -/
theorem witness_FramePutbAppendsOneByte :
    Ready (atFill (State.resetOfSize 42) 41) ∧ (atFill (State.resetOfSize 42) 41).flen.toNat + 1 ≤ (42 : Fin 65536).val
    ∧ Ready (atFill (State.resetOfSize 42) 42) ∧ (42 : Fin 65536).val < (atFill (State.resetOfSize 42) 42).flen.toNat + 1 :=
  ⟨⟨rfl, rfl⟩, by decide, ⟨rfl, rfl⟩, by decide⟩

/-- A block whose frame has two bytes that nothing has written. -/
theorem witness_RegionWithoutAByteStops :
    Ready (atFill State.reset 2) ∧ (2 : BitVec 16).toNat % 2 = 0
    ∧ (0 : BitVec 16).toNat + (2 : BitVec 16).toNat ≤ (atFill State.reset 2).flen.toNat
    ∧ 1 < (2 : BitVec 16).toNat ∧ (atFill State.reset 2).fb.read ((0 : BitVec 16).toNat + 1) = none
    ∧ 2 * (0 : BitVec 8).toNat + 2 ≤ (2 : BitVec 16).toNat :=
  ⟨⟨rfl, rfl⟩, by decide⟩

/-! ### Witnesses: faults and frames over all commands -/

theorem witness_FaultingCommandChangesOnlyFaultAndErr :
    Ready State.reset ∧ exec .packEth State.reset = .next (faulted State.reset) ∧ (faulted State.reset).fault = true :=
  ⟨ready_reset, rfl, rfl⟩

/-- One faulting command of each kind; `FRAME.CLEAR` has none. -/
theorem witness_EachCommandRaisesItsOwnCodes :
    Ready section7 ∧ portsAfter (exec (.setf 0x03 0) section7) = trace 20 true 2 0x1111 true
    ∧ portsAfter (exec (.serMac 0x00) section7) = trace 20 true 4 0x1111 true
    ∧ portsAfter (exec .packUdp section7) = trace 20 true 4 0x1111 true
    ∧ portsAfter (exec (.csumVerify 0 19) section7) = trace 20 true 6 0x1111 true
    ∧ portsAfter (exec (.framePutb 0) (atFill section7 2048)) = trace 2048 true 5 0x1111 true :=
  ⟨⟨rfl, rfl⟩, by decide +kernel⟩

theorem witness_FaultedBlockDiscardsEveryWord :
    (facing (.command 0) (faulted section7)).wasReset = true ∧ (facing (.command 0) (faulted section7)).fault = true
    ∧ (facing (.command 0) (faulted section7)).moves = .command 0 :: []
    ∧ (facing (.read 19) (faulted section7)).moves = .read 19 :: []
    ∧ (19 : BitVec 16).toNat < (faulted section7).flen.toNat ∧ (faulted section7).fb.read 19 = some 0xC7 := by
  decide +kernel

theorem witness_FaultedBlockSurvivesEveryList :
    (faulted section7).wasReset = true ∧ (faulted section7).fault = true
    ∧ ((faulted section7).setMoves [.command 0, .command 0x4000000000000000, .reset]).moves
        = [0x0000000000000000, 0x4000000000000000].map HostMove.command ++ [.reset] := by decide +kernel

/-- A discarded command keeps the fault; a reset clears it. -/
theorem witness_OnlyResetClearsTheFault :
    (facing (.command 0) (faulted State.reset)).fault = true
    ∧ step (facing (.command 0) (faulted State.reset)) = .next (faulted State.reset)
    ∧ (facing .reset (faulted State.reset)).fault = true
    ∧ step (facing .reset (faulted State.reset)) = .next State.reset := ⟨rfl, rfl, rfl, rfl⟩

/-- A writer of the registers, a writer of `RES` and `VOK`, a writer of the frame, and a writer of `FLEN` alone. -/
theorem witness_EachStateHasItsWriters :
    exec (.setf 0x26 255) State.reset = .next (State.reset.setField .ipTtl 255)
    ∧ exec (.csumVerify 0 0) State.reset = .next (State.reset.setResult 0 false)
    ∧ exec (.framePutb 1) State.reset = .next (State.reset.appendBytes [1]) ∧ (Instr.framePutb 1).appends = true
    ∧ exec .frameClear section7 = .next section7.clearFrame ∧ Instr.frameClear.appends = false :=
  ⟨rfl, rfl, rfl, rfl, rfl, rfl⟩

theorem witness_ComposedBytesNeverChange :
    exec (.framePutb 1) (withFrame [7]) = .next ((withFrame [7]).appendBytes [1]) ∧ (Instr.framePutb 1).appends = true
    ∧ 0 < (withFrame [7]).flen.toNat := ⟨rfl, rfl, by decide⟩

/-- Two commands whose bytes fill the smallest buffer exactly. -/
theorem witness_CompositionConcatenates :
    Ready (atFill (State.resetOfSize 42) 40)
    ∧ List.Forall₂ (fun i bs => i.appends = true ∧ headerBytes i (atFill (State.resetOfSize 42) 40).regs = .ok bs)
        [Instr.framePutb 1, Instr.framePutb 2] [[1], [2]]
    ∧ (atFill (State.resetOfSize 42) 40).flen.toNat + [[1#8], [2#8]].flatten.length
        ≤ (atFill (State.resetOfSize 42) 40).fbSize.val
    ∧ frame (withFrame [7]) = some [7] :=
  ⟨⟨rfl, rfl⟩, .cons ⟨rfl, rfl⟩ (.cons ⟨rfl, rfl⟩ .nil), by decide, by decide +kernel⟩

theorem witness_AppendsIgnoreTheContents :
    Instr.packEth.appends = true
    ∧ exec .packEth (withRegs linkRegs)
        = .next ((withRegs linkRegs).appendBytes [0xAA, 0xBB, 0xCC, 0xDD, 0xEE, 0xFF, 0x11, 0x22, 0x33, 0x44, 0x55,
            0x66, 0x08, 0x06]) := ⟨rfl, rfl⟩

/-- A buffer that differs from the frame's own at the first offset outside the frame. -/
theorem witness_BytesAboveTheFrameDoNotMatter :
    (Instr.csumVerify 0 20).appends = false
    ∧ (∀ a, a < section7.flen.toNat → (section7.fb.write 20 0xEE).read a = section7.fb.read a)
    ∧ (section7.fb.write 20 0xEE).read 20 ≠ section7.fb.read 20
    ∧ portsAfter (exec (.csumVerify 0 20) section7) = trace 20 false 0 0xFFFF true := by decide +kernel

/-- Each packer with a register of another group changed. -/
theorem witness_HeaderGroupsAreIndependent :
    ({ linkRegs with ipTtl := some 1 }).ethDst = (withRegs linkRegs).regs.ethDst
    ∧ ({ linkRegs with ipTtl := some 1 }).ethSrc = (withRegs linkRegs).regs.ethSrc
    ∧ ({ linkRegs with ipTtl := some 1 }).ethType = (withRegs linkRegs).regs.ethType
    ∧ (nextOf (exec .packEth (withRegs linkRegs))).isSome = true
    ∧ (nextOf (exec .packArph (withRegs arpRegs))).isSome = true
    ∧ (nextOf (exec .packArpp (withRegs arpRegs))).isSome = true
    ∧ (nextOf (exec .packIp4 (withRegs ip4Regs))).isSome = true
    ∧ (nextOf (exec .packUdp (withRegs udpRegs))).isSome = true := by decide +kernel

/-! ### Witnesses: the invariant -/

theorem legal_reset : FieldRegs.reset.Legal := by
  intro f v h
  cases f <;> first | (cases h; done) | (cases h; rfl)

/-- A block in the middle of a run meets the invariant: one byte in the frame, a word still to come. -/
theorem witness_inv : Inv ((withFrame [0x68]).setMoves [.command 0x4100000000000069]) where
  wasReset := rfl
  size := by decide
  flenInBuffer := by decide
  canonical := by decide
  inBuffer := by decide
  written := by
    intro a h
    have h1 : a < 1 := h
    interval_cases a
    rfl
  legal := legal_reset
  defaults := by unfold FieldRegs.DefaultsSet; decide
  errOfFault := by decide
  errRange := by decide
  vokMeans := by decide

theorem witness_StepKeepsTheInvariant :
    step ((withFrame [0x68]).setMoves [.command 0x4100000000000069])
      = .next (((withFrame [0x68]).setMoves []).appendBytes [0x69]) := rfl

/-! ### Witnesses: the Checksum Engine's functions -/

theorem witness_FoldHasItsClosedForm :
    ([] : List Byte).length % 2 = 0 ∧ canonicalHeader.length % 2 = 0 ∧ canonicalHeader.length ≤ maxFoldBytes
    ∧ [(1 : Byte)].length % 2 = 1 := by decide

theorem witness_CarryLoopTakesAtMostTwoPasses : 2 ≤ carryFuel := by decide

theorem witness_FoldIsZeroOnlyOnZeros :
    [(0 : Byte), 0].length ≤ maxFoldBytes ∧ fold [0, 0] = some 0 ∧ canonicalHeader.length ≤ maxFoldBytes
    ∧ fold canonicalHeader = some 0xFFFF := by decide +kernel

theorem witness_FoldIgnoresTheOrderOfWords :
    bigEndianWords [1, 2, 3, 4] = some [0x0102, 0x0304] ∧ bigEndianWords [3, 4, 1, 2] = some [0x0304, 0x0102]
    ∧ [(0x0102 : BitVec 16), 0x0304].Perm [0x0304, 0x0102] := by decide +kernel

theorem witness_FoldOfConcatenation :
    [(0xFF : Byte), 0xFF].length + [(0 : Byte), 1].length ≤ maxFoldBytes ∧ fold [0xFF, 0xFF] = some 0xFFFF
    ∧ fold [0, 1] = some 1 := by decide +kernel

/-- The first word and the last one of the canonical header. -/
theorem witness_ChecksumRoundTrip :
    canonicalHeader.length ≤ maxFoldBytes ∧ 2 * 0 + 2 ≤ canonicalHeader.length ∧ 2 * 9 + 2 ≤ canonicalHeader.length
    ∧ foldMasked canonicalHeader 0 = some 0xBAFF ∧ foldMasked canonicalHeader 9 = some 0xFF38 := by decide +kernel

theorem witness_SingleBitChangeIsDetected :
    19 < canonicalHeader.length ∧ canonicalHeader.length ≤ maxFoldBytes ∧ 7 < 8
    ∧ fold canonicalHeader = some 0xFFFF := by decide +kernel

theorem witness_AddressTextRoundTrip : ("aa:bb:cc:dd:ee:f".toList).length ≠ 17 := by decide +kernel

/-! ### Witnesses: the host's channel and the control flow -/

/-- A host with one open channel meets the invariant of the channels. -/
theorem witness_channelInv : ChannelInv oneOpen where
  names := by decide
  owned := by
    intro e he h hh
    cases List.mem_singleton.mp he
    cases hh
    decide
  owner := by decide
  liveOnce := by decide
  releasedOnce := by decide
  notBoth := by decide
  granted := by
    intro h
    change h < 1 ↔ h ∈ [0] ∨ h ∈ []
    simp
  namesGranted := by decide

theorem witness_ChannelMovesKeepOwnership : ChannelInv oneOpen ∧ (0, ⟨.packet, .raw, .arp, some 0⟩) ∈ oneOpen.channels :=
  ⟨witness_channelInv, .head _⟩

/-- An open channel, and a name under which there is none. -/
theorem witness_ChannelIsReleasedOnDestruction :
    ChannelInv oneOpen ∧ oneOpen.handleOf 0 = some 0 ∧ oneOpen.handleOf 1 = none ∧ 1 ≠ 0 :=
  ⟨witness_channelInv, rfl, rfl, by decide⟩

/-- A scope with each answer to its open, beside a channel that stays open. -/
theorem witness_ScopeReleasesOnEveryPath :
    ChannelInv oneOpen ∧ OpenAnswer.refused 1 ≠ OpenAnswer.granted ∧ OpenAnswer.abandoned 1 ≠ OpenAnswer.granted :=
  ⟨witness_channelInv, by decide, by decide⟩

/-- An operating system that grants at most two handles at a time. -/
theorem witness_SecondOpenSucceeds :
    ChannelInv oneOpen
    ∧ (fun (_ : OpenRequest) (held : List Nat) => if held.length < 2 then OpenAnswer.granted else .refused 24)
        (openRequest .packet .raw .arp) oneOpen.live = .granted := ⟨witness_channelInv, rfl⟩

theorem witness_SendPassesTheFrameToTheKernel :
    oneOpen.handleOf 0 = some 0 ∧ 1 ≠ [(1 : Byte), 2].length ∧ oneClosed.handleOf 0 = none := ⟨rfl, by decide, rfl⟩

/-- A malformed text; a flow whose only header is not set; and a flow of one link header and one payload byte. -/
theorem witness_ComposedFrameReachesTheChannel :
    expandAll [.setIp 0x29 "1.2.3".toList] = none
    ∧ expandAll [] = some []
    ∧ (nextOf (execAll ([] ++ composeCommands [.packUdp] []) State.reset)).map (·.fault) = some true
    ∧ execAll [] (withRegs linkRegs) = .next (withRegs linkRegs) ∧ Ready (withRegs linkRegs)
    ∧ oneOpen.handleOf 0 = some 0
    ∧ List.Forall₂ (fun i bs => i.appends = true ∧ headerBytes i (withRegs linkRegs).regs = .ok bs) [Instr.packEth]
        [[0xAA, 0xBB, 0xCC, 0xDD, 0xEE, 0xFF, 0x11, 0x22, 0x33, 0x44, 0x55, 0x66, 0x08, 0x06]]
    ∧ 14 + [(0x68 : Byte)].length ≤ (withRegs linkRegs).fbSize.val :=
  ⟨by decide +kernel, rfl, by decide +kernel, rfl, ⟨rfl, rfl⟩, rfl, .cons ⟨rfl, rfl⟩ .nil, by decide⟩

/-- The first word and the last one of the canonical header. -/
theorem witness_MaskedFoldLeavesOneWordOut :
    2 * 0 + 1 < canonicalHeader.length ∧ 2 * 9 + 1 < canonicalHeader.length ∧ canonicalHeader.length % 2 = 0
    ∧ canonicalHeader.length ≤ maxFoldBytes ∧ 19 < canonicalHeader.length := by decide

end Sys2Proof.Tests
end

/-! PROOFS. The invariant at reset (rules R5, R24). -/

namespace Sys2Proof.Machine

/-- R24: reset leaves no selector set. -/
theorem FieldRegs.get_reset_of_sel {f : FieldId} (h : f.kind = .sel) : FieldRegs.reset.get f = none :=
  match f, h with
  | .ethType, _ | .arpHtype, _ | .arpPtype, _ | .arpOper, _ | .ipProto, _ => rfl

/-- Only a selector has an illegal value, and reset leaves every selector UNSET. -/
theorem FieldRegs.legal_reset : FieldRegs.reset.Legal := by
  intro f v hv
  by_cases hsel : f.kind = .sel
  · rw [FieldRegs.get_reset_of_sel hsel] at hv
    cases hv
  · exact legal_of_not_sel hsel v.toNat

theorem FieldRegs.defaultsSet_reset : FieldRegs.reset.DefaultsSet :=
  ⟨rfl, rfl, rfl, rfl, rfl, rfl, rfl, rfl, rfl, rfl⟩

/-- At reset the frame is empty and no fault has happened, so that only the size has to be one that R5 admits. -/
theorem inv_resetOfSize {size : Fin 65536} (h : Config.fbSizeMin ≤ size.val) : Inv (State.resetOfSize size) where
  wasReset := rfl
  size := h
  flenInBuffer := Nat.zero_le _
  canonical := wf_nil
  inBuffer := fun _ hc => absurd hc List.not_mem_nil
  written := fun a ha => absurd ha a.not_lt_zero
  legal := FieldRegs.legal_reset
  defaults := FieldRegs.defaultsSet_reset
  errOfFault := iff_of_true rfl rfl
  errRange := Nat.zero_le _
  vokMeans := fun hv => absurd hv Bool.false_ne_true

/-- Settles O10: `State.reset` is the reset state of one size that R5 admits, 2048. -/
theorem invariantHoldsAtReset : Obligations.InvariantHoldsAtReset :=
  ⟨inv_resetOfSize (by decide), fun _ h => inv_resetOfSize h⟩

end Sys2Proof.Machine

/-! PROOFS. What each command that answers a next state does, said once, and what every step keeps: the writers of each
piece of state (rules R16 to R20), the independence of the header groups (R15), and the machine's invariant. -/

namespace Sys2Proof.Machine

/-! ### What a command can do -/

/-- A computation that answers has each of its parts answer. -/
theorem bind_eq_ok {α β : Type} {x : Except Abandon α} {f : α → Except Abandon β} {b : β} :
    (x >>= f) = .ok b ↔ ∃ a, x = .ok a ∧ f a = .ok b := by
  cases x with
  | ok a => simp
  | error e => simp

theorem append_eq_ok {s t : State} {bs : List Byte} :
    append s bs = .ok t ↔ s.flen.toNat + bs.length ≤ s.fbSize.val ∧ t = s.appendBytes bs := by
  rcases append_cases s bs with ⟨hfit, h⟩ | ⟨hbig, h⟩
  · simp [h, hfit, eq_comm]
  · simp [h, Nat.not_le.mpr hbig]

theorem readRegion_eq_ok {s : State} {base len : BitVec 16} {bs : List Byte} :
    readRegion s base len = .ok bs ↔ s.fb.readBytes base.toNat len.toNat = some bs := by
  unfold readRegion
  split <;> simp_all

theorem foldedSum_eq_ok {o : Option (BitVec 16)} {sum : BitVec 16} : foldedSum o = .ok sum ↔ o = some sum := by
  cases o <;> simp [foldedSum]

theorem setfBody_eq_ok {fid : BitVec 8} {val : BitVec 48} {s t : State} :
    setfBody fid val s = .ok t ↔
      ∃ f : FieldId, f.id = fid ∧ valueFits f val = true ∧ f.legal (valueFor f val).toNat = true
        ∧ t = s.setField f (valueFor f val) := by
  unfold setfBody
  cases hn : fieldNamed fid with
  | none => simp [fieldNamed_eq_none.mp hn]
  | some f =>
    constructor
    · intro h
      dsimp only at h
      split at h
      · cases h
      · next hfit =>
        split at h
        · cases h
        · next hlegal =>
          exact ⟨f, id_of_fieldNamed hn, by simpa using hfit, by simpa using hlegal, (Except.ok.inj h).symm⟩
    · rintro ⟨g, rfl, hfit, hlegal, rfl⟩
      obtain rfl : g = f := by simpa [fieldNamed_id] using hn
      simp [hfit, hlegal]

/-- `Completes i s t`: the command `i`, executed in the ready block `s`, completes and leaves `t`. -/
inductive Completes : Instr → State → State → Prop
  /-- The id names a register and the value fits it and is legal (R81). -/
  | setf {s : State} (f : FieldId) (val : BitVec 48) (hfit : valueFits f val = true)
      (hlegal : f.legal (valueFor f val).toNat = true) :
      Completes (.setf f.id val) s (s.setField f (valueFor f val))
  /-- The bytes of an appending command are known and fit (R36). -/
  | append {i : Instr} {s : State} (bs : List Byte) (hi : i.appends = true) (hb : headerBytes i s.regs = .ok bs)
      (hfit : s.flen.toNat + bs.length ≤ s.fbSize.val) : Completes i s (s.appendBytes bs)
  /-- The region is admitted, the word lies inside it, and its bytes have a masked fold (R69). -/
  | csumCompute {s : State} (base len : BitVec 16) (cw : BitVec 8) (bs : List Byte) (sum : BitVec 16)
      (hregion : admitRegion s base len = .ok ()) (hword : admitWord len cw = .ok ())
      (hread : s.fb.readBytes base.toNat len.toNat = some bs) (hsum : foldMasked bs cw.toNat = some sum) :
      Completes (.csumCompute base len cw) s (s.setResult sum false)
  /-- The region is admitted and its bytes have a fold (R70). -/
  | csumVerify {s : State} (base len : BitVec 16) (bs : List Byte) (sum : BitVec 16)
      (hregion : admitRegion s base len = .ok ()) (hread : s.fb.readBytes base.toNat len.toNat = some bs)
      (hsum : fold bs = some sum) : Completes (.csumVerify base len) s (s.setResult sum (vokOfVerify sum))
  /-- Always (R121). -/
  | frameClear {s : State} : Completes .frameClear s s.clearFrame

theorem completes_of_appends {i : Instr} {s t : State} (hi : i.appends = true) (h : bodyOf i s = .ok t) :
    Completes i s t := by
  rw [bodyOf_appends hi, bind_eq_ok] at h
  obtain ⟨bs, hb, h⟩ := h
  obtain ⟨hfit, rfl⟩ := append_eq_ok.mp h
  exact .append bs hi hb hfit

theorem completes_of_csumComputeBody {base len : BitVec 16} {cw : BitVec 8} {s t : State}
    (h : csumComputeBody base len cw s = .ok t) : Completes (.csumCompute base len cw) s t := by
  simp only [csumComputeBody, bind_eq_ok, readRegion_eq_ok, foldedSum_eq_ok] at h
  obtain ⟨_, hregion, _, hword, bs, hread, sum, hsum, h⟩ := h
  obtain rfl := Except.ok.inj h
  exact .csumCompute base len cw bs sum hregion hword hread hsum

theorem completes_of_csumVerifyBody {base len : BitVec 16} {s t : State} (h : csumVerifyBody base len s = .ok t) :
    Completes (.csumVerify base len) s t := by
  simp only [csumVerifyBody, bind_eq_ok, readRegion_eq_ok, foldedSum_eq_ok] at h
  obtain ⟨_, hregion, bs, hread, sum, hsum, h⟩ := h
  obtain rfl := Except.ok.inj h
  exact .csumVerify base len bs sum hregion hread hsum

/-- Everything the body of a command that completes can do. The appending commands share one case. -/
theorem completes_of_bodyOf {i : Instr} {s t : State} (h : bodyOf i s = .ok t) : Completes i s t := by
  cases i with
  | setf fid val =>
    obtain ⟨f, rfl, hfit, hlegal, rfl⟩ := setfBody_eq_ok.mp h
    exact .setf f val hfit hlegal
  | csumCompute => exact completes_of_csumComputeBody h
  | csumVerify => exact completes_of_csumVerifyBody h
  | frameClear =>
    obtain rfl := Except.ok.inj h
    exact .frameClear
  | serMac | serIp4 | packEth | packArph | packArpp | packIp4 | packUdp | framePutb => exact completes_of_appends rfl h

/-- Everything a command that answers a next state can do: it is discarded (R155), it completes, or it faults (R154). -/
theorem exec_cases {i : Instr} {s t : State} (h : exec i s = .next t) :
    (s.wasReset = true ∧ s.fault = true ∧ t = s) ∨ (Ready s ∧ Completes i s t)
      ∨ ∃ c, Ready s ∧ t = s.takeFault c := by
  rw [exec_eq_runCommand] at h
  rcases runCommand_next h with hdiscard | ⟨hs, hb⟩ | ⟨c, hs, -, ht⟩
  · exact .inl hdiscard
  · exact .inr (.inl ⟨hs, completes_of_bodyOf hb⟩)
  · exact .inr (.inr ⟨c, hs, ht⟩)

/-! ### The invariant (rules R12 to R21, R151, R172) -/

/-- A write keeps a register file legal when the written value is. -/
theorem FieldRegs.Legal.set {r : FieldRegs} (h : r.Legal) {f : FieldId} {v : BitVec f.width}
    (hv : f.legal v.toNat = true) : (r.set f v).Legal := by
  intro g w hw
  by_cases hg : g = f
  · subst hg
    rw [get_set_same, Option.some.injEq] at hw
    exact hw ▸ hv
  · rw [get_set_other r v hg] at hw
    exact h g w hw

/-- A write leaves no register UNSET that was set. -/
theorem FieldRegs.isSome_get_set {r : FieldRegs} {g : FieldId} (h : (r.get g).isSome) (f : FieldId)
    (v : BitVec f.width) : ((r.set f v).get g).isSome := by
  by_cases hg : g = f
  · subst hg
    rw [get_set_same]
    rfl
  · rwa [get_set_other r v hg]

/-- The ten registers with a default (R13, R24). -/
def defaultedFields : List FieldId :=
  [.ipDscp, .ipEcn, .ipTotlen, .ipId, .ipFlags, .ipFrag, .ipTtl, .ipCsum, .udpLen, .udpCsum]

theorem FieldRegs.defaultsSet_iff (r : FieldRegs) : r.DefaultsSet ↔ ∀ f ∈ defaultedFields, (r.get f).isSome := by
  simp only [defaultedFields, List.forall_mem_cons, List.not_mem_nil, false_implies, implies_true, and_true]
  exact Iff.rfl

theorem FieldRegs.DefaultsSet.set {r : FieldRegs} (h : r.DefaultsSet) (f : FieldId) (v : BitVec f.width) :
    (r.set f v).DefaultsSet :=
  (defaultsSet_iff _).mpr fun g hg => isSome_get_set ((defaultsSet_iff r).mp h g hg) f v

theorem FaultCode.code_ne_zero (c : FaultCode) : c.code ≠ 0 := by cases c <;> decide

theorem FaultCode.code_le (c : FaultCode) : c.code.toNat ≤ 7 := by cases c <;> decide

theorem Inv.setMoves {s : State} (h : Inv s) (ms : List HostMove) : Inv (s.setMoves ms) := { h with }

theorem Inv.recordRead {s : State} (h : Inv s) (a : BitVec 16) (b : Byte) : Inv (s.recordRead a b) := { h with }

theorem Inv.countDraw {s : State} (h : Inv s) : Inv s.countDraw := { h with }

theorem Inv.applyReset {s : State} (h : Inv s) : Inv s.applyReset := { inv_resetOfSize h.size with }

theorem Inv.readPort {s : State} (h : Inv s) (a : BitVec 16) : Inv (readPort a s) := by
  rcases readPort_cases a s with ⟨b, -, hr⟩ | ⟨-, hr⟩
  · exact hr ▸ h.recordRead a b
  · exact hr ▸ (h.recordRead a _).countDraw

theorem Inv.takeFault {s : State} (h : Inv s) (c : FaultCode) : Inv (s.takeFault c) :=
  { h with
    errOfFault := iff_of_false c.code_ne_zero Bool.true_eq_false.mp
    errRange := c.code_le }

theorem Inv.setField {s : State} (h : Inv s) {f : FieldId} {v : BitVec f.width} (hv : f.legal v.toNat = true) :
    Inv (s.setField f v) :=
  { h with
    legal := h.legal.set hv
    defaults := h.defaults.set f v }

theorem Inv.clearFrame {s : State} (h : Inv s) : Inv s.clearFrame :=
  { h with
    flenInBuffer := Nat.zero_le _
    written := fun a ha => absurd ha a.not_lt_zero }

theorem Inv.setResult {s : State} (h : Inv s) {sum : BitVec 16} {ok : Bool} (hok : ok = true → sum = 0xFFFF) :
    Inv (s.setResult sum ok) :=
  { h with vokMeans := hok }

/-- An append that fits writes the bytes between the old `FLEN` and the new one, inside the buffer. -/
theorem Inv.appendBytes {s : State} (h : Inv s) {bs : List Byte} (hfit : s.flen.toNat + bs.length ≤ s.fbSize.val) :
    Inv (s.appendBytes bs) :=
  { h with
    flenInBuffer := (appendBytes_flen_toNat hfit).trans_le hfit
    canonical := wf_writeBytes h.canonical _ _
    inBuffer := by
      intro c hc
      rcases mem_writeBytes hc with hold | ⟨-, hnew⟩
      · exact h.inBuffer c hold
      · exact hnew.trans_le hfit
    written := by
      obtain ⟨hflen, hin, hout, -⟩ := appended_appendBytes hfit
      intro a ha
      by_cases hold : a < s.flen.toNat
      · rw [hout a (.inl hold)]
        exact h.written a hold
      · obtain ⟨k, rfl⟩ := Nat.exists_eq_add_of_le (Nat.not_lt.mp hold)
        rw [hin k (by omega)]
        rfl }

theorem Inv.completes {i : Instr} {s t : State} (h : Inv s) (hc : Completes i s t) : Inv t := by
  cases hc with
  | setf f val hfit hlegal => exact h.setField hlegal
  | append bs hi hb hfit => exact h.appendBytes hfit
  | csumCompute => exact h.setResult fun hok => absurd hok Bool.false_ne_true
  | csumVerify => exact h.setResult eq_of_beq
  | frameClear => exact h.clearFrame

theorem Inv.exec {i : Instr} {s t : State} (h : Inv s) (he : exec i s = .next t) : Inv t := by
  rcases exec_cases he with ⟨-, -, rfl⟩ | ⟨-, hc⟩ | ⟨c, -, rfl⟩
  · exact h
  · exact h.completes hc
  · exact h.takeFault c

theorem Inv.illegalCommand {s t : State} (h : Inv s) (he : illegalCommand s = .next t) : Inv t := by
  rcases runCommand_next he with ⟨-, -, rfl⟩ | ⟨-, hb⟩ | ⟨c, -, -, rfl⟩
  · exact h
  · cases hb
  · exact h.takeFault c

/-- Settles O39: one lemma per move of the host, and for a command one per update of the state. -/
theorem stepKeepsTheInvariant : Obligations.StepKeepsTheInvariant := by
  intro s t h hstep
  rcases step_cases hstep with
    ⟨-, rfl⟩ | ⟨rest, ⟨-, rfl⟩ | ⟨a, -, rfl⟩ | ⟨w, i, -, -, he⟩ | ⟨w, why, -, -, he⟩⟩
  · exact h
  · exact (h.setMoves rest).applyReset
  · exact (h.setMoves rest).readPort a
  · exact (h.setMoves rest).exec he
  · exact (h.setMoves rest).illegalCommand he

/-! ### A checksum region without a value (rule R24, log 4) -/

/-- A region has no value when one of its bytes has none. -/
theorem readBytes_eq_none {m : Memory} {a n k : Nat} (hk : k < n) (h : m.read (a + k) = none) :
    m.readBytes a n = none := by
  rw [Option.eq_none_iff_forall_ne_some]
  intro bs hbs
  obtain ⟨hlen, hread⟩ := readBytes_eq_some.mp hbs
  rw [hread k (hlen ▸ hk)] at h
  cases h

theorem readRegion_stops {s : State} {base len : BitVec 16} (h : s.fb.readBytes base.toNat len.toNat = none) :
    readRegion s base len = .error (.stop .noByte) := by
  rw [readRegion, h]

/-- Settles O27: the checks of the region pass, and the read finds no value. -/
theorem regionWithoutAByteStops : Obligations.RegionWithoutAByteStops := by
  intro s base len cw hs heven hinside ⟨k, hk, hnone⟩
  have hregion := admitRegion_eq_ok.mpr ⟨getLsbD_zero_eq_false.mpr heven, hinside⟩
  have hread := readRegion_stops (readBytes_eq_none hk hnone)
  constructor
  · refine runCommand_stop hs ?_
    rw [csumVerifyBody, hregion, bind_ok, hread, bind_error]
  · intro hword
    refine runCommand_stop hs ?_
    rw [csumComputeBody, hregion, bind_ok, admitWord_eq_ok.mpr hword, bind_ok, hread, bind_error]

/-! ### Frames over all commands -/

/-- Settles O33: a discarded command and a faulting one write none of this state; for one that completes, each update
of the state writes its own. -/
theorem eachStateHasItsWriters : Obligations.EachStateHasItsWriters := by
  intro i s t h
  rcases exec_cases h with ⟨-, -, rfl⟩ | ⟨-, hc⟩ | ⟨c, -, rfl⟩
  · simp
  · cases hc with
    | setf f val => simp
    | append bs hi => simp [hi]
    | csumCompute base len cw => simp
    | csumVerify base len => simp
    | frameClear => simp
  · simp

section HeaderGroups

variable {r q : FieldRegs}

theorem ethHeader_congr (h1 : r.ethDst = q.ethDst) (h2 : r.ethSrc = q.ethSrc) (h3 : r.ethType = q.ethType) :
    ethHeader r = ethHeader q := by
  simp only [ethHeader, h1, h2, h3]

theorem arphHeader_congr (h1 : r.arpHtype = q.arpHtype) (h2 : r.arpPtype = q.arpPtype) (h3 : r.arpOper = q.arpOper) :
    arphHeader r = arphHeader q := by
  simp only [arphHeader, h1, h2, h3]

theorem arppPayload_congr (h1 : r.arpSha = q.arpSha) (h2 : r.arpSpa = q.arpSpa) (h3 : r.arpTha = q.arpTha)
    (h4 : r.arpTpa = q.arpTpa) : arppPayload r = arppPayload q := by
  simp only [arppPayload, h1, h2, h3, h4]

theorem ip4Header_congr (h1 : r.ipDscp = q.ipDscp) (h2 : r.ipEcn = q.ipEcn) (h3 : r.ipTotlen = q.ipTotlen)
    (h4 : r.ipId = q.ipId) (h5 : r.ipFlags = q.ipFlags) (h6 : r.ipFrag = q.ipFrag) (h7 : r.ipTtl = q.ipTtl)
    (h8 : r.ipProto = q.ipProto) (h9 : r.ipCsum = q.ipCsum) (h10 : r.ipSrc = q.ipSrc) (h11 : r.ipDst = q.ipDst) :
    ip4Header r = ip4Header q := by
  simp only [ip4Header, h1, h2, h3, h4, h5, h6, h7, h8, h9, h10, h11]

theorem udpHeader_congr (h1 : r.udpSport = q.udpSport) (h2 : r.udpDport = q.udpDport) (h3 : r.udpLen = q.udpLen)
    (h4 : r.udpCsum = q.udpCsum) : udpHeader r = udpHeader q := by
  simp only [udpHeader, h1, h2, h3, h4]

end HeaderGroups

/-- The same block with other field registers. -/
def State.replaceRegs (s : State) (r : FieldRegs) : State := { s with regs := r }

/-- An append reads no field register and writes none. -/
theorem append_replaceRegs (s : State) (r : FieldRegs) (bs : List Byte) :
    append (s.replaceRegs r) bs = (append s bs).map (·.replaceRegs r) := by
  rcases append_cases s bs with ⟨hfit, h⟩ | ⟨hbig, h⟩
  · rw [h]
    exact append_fits hfit
  · rw [h]
    exact append_overflows hbig

theorem bodyOf_replaceRegs {i : Instr} {s : State} {r : FieldRegs} (hi : i.appends = true)
    (hr : headerBytes i r = headerBytes i s.regs) :
    bodyOf i (s.replaceRegs r) = (bodyOf i s).map (·.replaceRegs r) := by
  have hregs : headerBytes i (s.replaceRegs r).regs = headerBytes i s.regs := hr
  rw [bodyOf_appends hi, bodyOf_appends hi, hregs]
  cases headerBytes i s.regs with
  | error e => rfl
  | ok bs => exact append_replaceRegs s r bs

/-- An appending command sees of the field registers only the bytes that they make. -/
theorem exec_replaceRegs {i : Instr} {s t : State} {r : FieldRegs} (hi : i.appends = true)
    (hr : headerBytes i r = headerBytes i s.regs) (h : exec i s = .next t) :
    exec i (s.replaceRegs r) = .next (t.replaceRegs r) := by
  have hbody := bodyOf_replaceRegs hi hr
  rw [exec_eq_runCommand] at h ⊢
  rcases runCommand_next h with ⟨hreset, hfault, rfl⟩ | ⟨hs, hb⟩ | ⟨c, hs, hb, rfl⟩
  · exact runCommand_discards hreset hfault
  · rw [hb] at hbody
    exact runCommand_ok hs hbody
  · rw [hb] at hbody
    exact runCommand_raise hs hbody

/-- Settles O38: the bytes of each header are a function of its own group. -/
theorem headerGroupsAreIndependent : Obligations.HeaderGroupsAreIndependent := by
  intro s t r
  refine ⟨?eth, ?arph, ?arpp, ?ip4, ?udp⟩
  case eth => exact fun h1 h2 h3 => exec_replaceRegs rfl (ethHeader_congr h1 h2 h3)
  case arph => exact fun h1 h2 h3 => exec_replaceRegs rfl (arphHeader_congr h1 h2 h3)
  case arpp => exact fun h1 h2 h3 h4 => exec_replaceRegs rfl (arppPayload_congr h1 h2 h3 h4)
  case ip4 =>
    exact fun h1 h2 h3 h4 h5 h6 h7 h8 h9 h10 h11 =>
      exec_replaceRegs rfl (ip4Header_congr h1 h2 h3 h4 h5 h6 h7 h8 h9 h10 h11)
  case udp => exact fun h1 h2 h3 h4 => exec_replaceRegs rfl (udpHeader_congr h1 h2 h3 h4)

/-! ### The step, the reset state and the read port -/

/-- A word that decodes to a command is issued by executing the command (R44). -/
theorem issueWord_of_decode {w : Word} {i : Instr} (h : decode w = .command i) (s : State) :
    issueWord w s = exec i s := by
  rw [issueWord, h]

/-- Settles O6: the next move is taken off the list, and its word is issued. -/
theorem stepRunsTheDecodedCommand : Obligations.StepRunsTheDecodedCommand := by
  intro s w rest i hmoves hdecode
  rw [step_move hmoves]
  exact issueWord_of_decode hdecode _

/-- At or above `FLEN` no byte is specified (R22). -/
theorem specifiedByte_outside {s : State} {a : BitVec 16} (h : s.flen.toNat ≤ a.toNat) : specifiedByte s a = none :=
  if_neg fun hin => Nat.not_lt.mpr h hin.2

/-- Below `FLEN` the specified byte is the one in the buffer (R22). -/
theorem specifiedByte_inside {s : State} {a : BitVec 16} (hr : s.wasReset = true) (h : a.toNat < s.flen.toNat) :
    specifiedByte s a = s.fb.read a.toNat :=
  if_pos ⟨hr, h⟩

theorem readPort_of_specified {s : State} {a : BitVec 16} {b : Byte} (h : specifiedByte s a = some b) :
    readPort a s = s.recordRead a b := by
  rw [readPort, h]

theorem readPort_of_unspecified {s : State} {a : BitVec 16} (h : specifiedByte s a = none) :
    readPort a s = (s.recordRead a (Config.freeByte s.draws)).countDraw := by
  rw [readPort, h]

/-- The state of the table of R24; the frame is empty, so that no byte is specified. -/
theorem afterReset_resetOfSize (size : Fin 65536) : AfterReset (State.resetOfSize size) where
  link := ⟨rfl, rfl, rfl⟩
  resolution := ⟨rfl, rfl, rfl⟩
  payload := ⟨rfl, rfl, rfl, rfl⟩
  internetUnset := ⟨rfl, rfl, rfl⟩
  internetZero := ⟨rfl, rfl, rfl, rfl, rfl⟩
  internetSet := ⟨rfl, rfl, rfl⟩
  transportUnset := ⟨rfl, rfl⟩
  transportSet := ⟨rfl, rfl⟩
  frameEmpty := rfl
  bytes := fun _ => specifiedByte_outside (Nat.zero_le _)
  result := ⟨rfl, rfl⟩
  noFault := ⟨rfl, rfl⟩
  ready := rfl

/-- The reset transition differs from the reset state in the host's lists alone, of which R24 says nothing. -/
theorem afterReset_applyReset (s : State) : AfterReset s.applyReset := { afterReset_resetOfSize s.fbSize with }

/-- Settles O9: every piece of state is written out by `State.resetOfSize`. -/
theorem resetStateIsAfterReset : Obligations.ResetStateIsAfterReset := afterReset_resetOfSize

/-- Settles O8: the step is `State.applyReset`, which keeps the buffer size and the host's lists. -/
theorem resetTransitionLeavesResetState : Obligations.ResetTransitionLeavesResetState :=
  fun s rest hmoves =>
    ⟨(s.setMoves rest).applyReset, step_move hmoves, afterReset_applyReset _, rfl, rfl, rfl, rfl⟩

/-- Settles O12: the two clauses are the two answers of the read port. -/
theorem readPortShowsTheFrame : Obligations.ReadPortShowsTheFrame := by
  intro s a rest hmoves hreset
  rw [step_move hmoves]
  constructor
  · intro b hin hb
    have hspec : specifiedByte (s.setMoves rest) a = some b := (specifiedByte_inside hreset hin).trans hb
    exact congrArg Host.Outcome.next (readPort_of_specified hspec)
  · intro hout
    have hspec : specifiedByte (s.setMoves rest) a = none := specifiedByte_outside hout
    exact congrArg Host.Outcome.next (readPort_of_unspecified hspec)

/-! ### The field-register table (rule R12) -/

theorem mem_allFields (f : FieldId) : f ∈ allFields := by cases f <;> decide

theorem fieldNamed_eq_some_iff_mem (fid : BitVec 8) (f : FieldId) :
    fieldNamed fid = some f ↔ f ∈ allFields ∧ f.id = fid := by
  rw [fieldNamed_eq_some, and_iff_right (mem_allFields f)]

/-- Settles O13: the columns by evaluation of the table, the ids and the closed sets for every value. -/
theorem fieldTableIsTheSpecs : Obligations.FieldTableIsTheSpecs := by
  refine ⟨rfl, rfl, rfl, fieldNamed_eq_some_iff_mem, ?ethType, ?arpHtype, ?arpPtype, ?arpOper, ?ipProto,
    fun f => legal_of_not_sel⟩
  case ethType => simp [FieldId.legal, or_assoc]
  case arpHtype => simp [FieldId.legal]
  case arpPtype => simp [FieldId.legal]
  case arpOper => simp [FieldId.legal]
  case ipProto => simp [FieldId.legal, or_assoc]

end Sys2Proof.Machine

/-! PROOFS. The frame buffer under the commands: what stays, what an append adds, and what is never read (rules R37, R39,
R40, R123, R180). -/

namespace Sys2Proof.Machine

/-! ### Composed bytes stay (rule R39) -/

/-- Settles O34: of the commands that complete only an append writes `FB`, and it writes from the old `FLEN` up to the
new one. -/
theorem composedBytesNeverChange : Obligations.ComposedBytesNeverChange := by
  intro i s t h
  rcases exec_cases h with ⟨-, -, rfl⟩ | ⟨-, hc⟩ | ⟨c, -, rfl⟩
  · simp
  · cases hc with
    | append bs hi hb hfit =>
      obtain ⟨hflen, -, hout, -⟩ := appended_appendBytes hfit
      exact ⟨fun a ha => hout a (.inl ha), fun _ => ⟨by omega, fun a ha => hout a (.inr (hflen ▸ ha))⟩⟩
    | setf f val => simp
    | csumCompute base len cw => simp
    | csumVerify base len => simp
    | frameClear => simp [Instr.appends]
  · simp

/-! ### Composition is concatenation (rules R39, R123) -/

theorem writeBytes_append (m : Memory) (a : Nat) (bs cs : List Byte) :
    m.writeBytes a (bs ++ cs) = (m.writeBytes a bs).writeBytes (a + bs.length) cs := by
  induction bs generalizing m a with
  | nil => rfl
  | cons b bs ih =>
    have hend : a + (b :: bs).length = a + 1 + bs.length := by simp only [List.length_cons]; omega
    rw [hend]
    exact ih (m.write a b) (a + 1)

/-- Two appends, the first of which fits, are one append of both sequences. -/
theorem appendBytes_append {s : State} {bs : List Byte} (hfit : s.flen.toNat + bs.length ≤ s.fbSize.val)
    (cs : List Byte) : s.appendBytes (bs ++ cs) = (s.appendBytes bs).appendBytes cs := by
  have hend := appendBytes_flen_toNat hfit
  rw [State.appendBytes_flen] at hend
  simp only [State.appendBytes, hend, writeBytes_append, List.length_append, BitVec.ofNat_add, BitVec.add_assoc]

/-- A list of appending commands whose bytes are known and fit is one append of their concatenation. -/
theorem execAll_appends_fit {is : List Instr} {segs : List (List Byte)} {s : State} (hs : Ready s)
    (hsegs : List.Forall₂ (fun i bs => i.appends = true ∧ headerBytes i s.regs = .ok bs) is segs)
    (hfit : s.flen.toNat + segs.flatten.length ≤ s.fbSize.val) :
    execAll is s = .next (s.appendBytes segs.flatten) := by
  induction is generalizing segs s with
  | nil =>
    cases hsegs
    simp [execAll, State.appendBytes, Memory.writeBytes]
  | cons i is ih =>
    obtain ⟨bs, segs, ⟨hi, hb⟩, hrest, rfl⟩ := List.forall₂_cons_left_iff.mp hsegs
    rw [List.flatten_cons, List.length_append] at hfit
    have hhead : s.flen.toNat + bs.length ≤ s.fbSize.val := by omega
    have htail : (s.appendBytes bs).flen.toNat + segs.flatten.length ≤ s.fbSize.val := by
      rw [appendBytes_flen_toNat hhead]
      omega
    rw [List.flatten_cons, appendBytes_append hhead]
    simp only [execAll, exec_append_fits hi hs hb hhead]
    exact ih hs hrest htail

/-- A composed frame that has a value grows by the bytes appended to it. -/
theorem frame_of_appended {s t : State} {bs f : List Byte} (h : Appended s t bs) (hf : frame s = some f) :
    frame t = some (f ++ bs) := by
  obtain ⟨hflen, hin, hout, -⟩ := h
  obtain ⟨hlen, hread⟩ := readBytes_eq_some.mp hf
  refine readBytes_eq_some.mpr ⟨by rw [List.length_append, hlen, hflen], fun k hk => ?_⟩
  rw [Nat.zero_add]
  by_cases hold : k < f.length
  · rw [hout k (.inl (hlen ▸ hold)), List.getElem_append_left hold]
    simpa using hread k hold
  · obtain ⟨j, rfl⟩ := Nat.exists_eq_add_of_le (Nat.not_lt.mp hold)
    rw [List.length_append] at hk
    rw [List.getElem_append_right (Nat.le_add_right ..)]
    simpa [hlen] using hin j (by omega)

/-- Settles O35: the list is one append, and the frame below it stays. -/
theorem compositionConcatenates : Obligations.CompositionConcatenates := by
  intro is segs s hs hsegs hfit
  have happ := appended_appendBytes hfit
  exact ⟨s.appendBytes segs.flatten, execAll_appends_fit hs hsegs hfit, happ, fun f hf => frame_of_appended happ hf⟩

/-! ### What the contents of the buffer decide (rules R37, R40, R180) -/

/-- The same block with other contents of the frame buffer. -/
def State.replaceFb (s : State) (m : Memory) : State := { s with fb := m }

@[simp] theorem State.replaceFb_regs (s : State) (m : Memory) : (s.replaceFb m).regs = s.regs := rfl

/-- Whether an append fits, and so whether an appending command faults, does not depend on the contents of `FB`. -/
theorem bodyOf_replaceFb_error {i : Instr} {s : State} {e : Abandon} (hi : i.appends = true)
    (h : bodyOf i s = .error e) (m : Memory) : bodyOf i (s.replaceFb m) = .error e := by
  rw [bodyOf_appends hi] at h ⊢
  rw [State.replaceFb_regs]
  cases hb : headerBytes i s.regs with
  | error e' => rwa [hb] at h
  | ok bs =>
    rw [hb, bind_ok] at h
    rw [bind_ok]
    rcases append_cases s bs with ⟨-, happ⟩ | ⟨hbig, happ⟩
    · rw [happ] at h
      cases h
    · rw [happ] at h
      exact (append_overflows (s := s.replaceFb m) hbig).trans h

/-- Settles O36: the bytes appended are a function of the registers, and where they go is one of `FLEN`. -/
theorem appendsIgnoreTheContents : Obligations.AppendsIgnoreTheContents := by
  intro i s t m hi h
  rw [exec_eq_runCommand] at h
  rcases runCommand_next h with ⟨hreset, hfault, rfl⟩ | ⟨hs, hb⟩ | ⟨c, hs, hb, rfl⟩
  · refine ⟨m, ?_, fun a hlo hhi => absurd hhi (Nat.not_lt.mpr hlo)⟩
    rw [exec_eq_runCommand]
    exact runCommand_discards hreset hfault
  · rw [bodyOf_appends hi, bind_eq_ok] at hb
    obtain ⟨bs, hbs, hb⟩ := hb
    obtain ⟨hfit, rfl⟩ := append_eq_ok.mp hb
    refine ⟨m.writeBytes s.flen.toNat bs, exec_append_fits hi hs hbs hfit, fun a hlo hhi => ?_⟩
    rw [appendBytes_flen_toNat hfit] at hhi
    obtain ⟨k, rfl⟩ := Nat.exists_eq_add_of_le hlo
    have hk : k < bs.length := by omega
    rw [State.appendBytes_fb, read_writeBytes_inside _ _ _ hk, read_writeBytes_inside _ _ _ hk]
  · refine ⟨m, ?_, fun a hlo hhi => absurd hhi (Nat.not_lt.mpr hlo)⟩
    rw [exec_eq_runCommand]
    exact runCommand_raise hs (bodyOf_replaceFb_error hi hb m)

/-- Two computations that begin alike differ by `g` when they go on so. -/
theorem bind_eq_map {α β : Type} {x : Except Abandon α} {f f' : α → Except Abandon β} {g : β → β}
    (h : ∀ a, x = .ok a → f' a = (f a).map g) : (x >>= f') = (x >>= f).map g := by
  cases x with
  | error e => rfl
  | ok a => exact h a rfl

/-- Whether a region is admitted does not depend on the contents of `FB`. -/
theorem admitRegion_replaceFb (s : State) (m : Memory) (base len : BitVec 16) :
    admitRegion (s.replaceFb m) base len = admitRegion s base len := rfl

theorem setfBody_replaceFb (fid : BitVec 8) (val : BitVec 48) (s : State) (m : Memory) :
    setfBody fid val (s.replaceFb m) = (setfBody fid val s).map (·.replaceFb m) := by
  unfold setfBody
  split
  · rfl
  · split
    · rfl
    · split <;> rfl

section SameFrame

variable {s : State} {m : Memory} (hm : ∀ a, a < s.flen.toNat → m.read a = s.fb.read a)

include hm

/-- An admitted region lies inside the frame, so that its value depends on the bytes of the frame alone (R37). -/
theorem readRegion_replaceFb {base len : BitVec 16} (h : admitRegion s base len = .ok ()) :
    readRegion (s.replaceFb m) base len = readRegion s base len := by
  obtain ⟨-, hinside⟩ := admitRegion_eq_ok.mp h
  have hbytes : m.readBytes base.toNat len.toNat = s.fb.readBytes base.toNat len.toNat :=
    readBytes_congr fun x _ hx => hm x (by omega)
  simp only [readRegion, State.replaceFb, hbytes]

theorem csumComputeBody_replaceFb (base len : BitVec 16) (cw : BitVec 8) :
    csumComputeBody base len cw (s.replaceFb m) = (csumComputeBody base len cw s).map (·.replaceFb m) := by
  rw [csumComputeBody, csumComputeBody, admitRegion_replaceFb]
  refine bind_eq_map fun _ hregion => bind_eq_map fun _ _ => ?_
  rw [readRegion_replaceFb hm hregion]
  exact bind_eq_map fun _ _ => bind_eq_map fun _ _ => rfl

theorem csumVerifyBody_replaceFb (base len : BitVec 16) :
    csumVerifyBody base len (s.replaceFb m) = (csumVerifyBody base len s).map (·.replaceFb m) := by
  rw [csumVerifyBody, csumVerifyBody, admitRegion_replaceFb]
  refine bind_eq_map fun _ hregion => ?_
  rw [readRegion_replaceFb hm hregion]
  exact bind_eq_map fun _ _ => bind_eq_map fun _ _ => rfl

/-- The body of a command that appends nothing reads of `FB` at most bytes below `FLEN`, and writes none. -/
theorem bodyOf_replaceFb {i : Instr} (hi : i.appends = false) :
    bodyOf i (s.replaceFb m) = (bodyOf i s).map (·.replaceFb m) := by
  cases i with
  | setf fid val => exact setfBody_replaceFb fid val s m
  | csumCompute base len cw => exact csumComputeBody_replaceFb hm base len cw
  | csumVerify base len => exact csumVerifyBody_replaceFb hm base len
  | frameClear => rfl
  | serMac | serIp4 | packEth | packArph | packArpp | packIp4 | packUdp | framePutb => cases hi

end SameFrame

/-- Settles O37: the body answers the same in both blocks, whether it completes or faults. -/
theorem bytesAboveTheFrameDoNotMatter : Obligations.BytesAboveTheFrameDoNotMatter := by
  intro i s t m hi hm h
  have hbody := bodyOf_replaceFb hm hi
  rw [exec_eq_runCommand] at h ⊢
  rcases runCommand_next h with ⟨hreset, hfault, rfl⟩ | ⟨hs, hb⟩ | ⟨c, hs, hb, rfl⟩
  · exact runCommand_discards hreset hfault
  · rw [hb] at hbody
    exact runCommand_ok hs hbody
  · rw [hb] at hbody
    exact runCommand_raise hs hbody

end Sys2Proof.Machine

/-! PROOFS. The encoding: the encoder and the decoder undo each other (rules R46 to R51), the opcode table agrees with
them (R58), and an illegal word faults (R53, R54). -/

namespace Sys2Proof

/-! ### The parts of the immediate (rules R47, R49) -/

section RegionImmediate

variable (op a : BitVec 8) (len base : BitVec 16)

@[simp] theorem regionMbz_wordOf_region : regionMbz (wordOf op a (0#16 ++ len ++ base)) = 0#16 := by
  have := len.isLt
  have := base.isLt
  rw [← BitVec.toNat_inj, regionMbz_toNat, wordOf_toNat, regionImm_toNat, BitVec.toNat_zero]
  omega

@[simp] theorem lenField_wordOf_region : lenField (wordOf op a (0#16 ++ len ++ base)) = len := by
  have := len.isLt
  have := base.isLt
  rw [← BitVec.toNat_inj, lenField_toNat, wordOf_toNat, regionImm_toNat]
  omega

@[simp] theorem baseField_wordOf_region : baseField (wordOf op a (0#16 ++ len ++ base)) = base := by
  have := base.isLt
  rw [← BitVec.toNat_inj, baseField_toNat, wordOf_toNat, regionImm_toNat]
  omega

end RegionImmediate

@[simp] theorem byteMbz_wordOf_byte (op a : BitVec 8) (byte : Byte) : byteMbz (wordOf op a (0#40 ++ byte)) = 0#40 := by
  have := byte.isLt
  rw [← BitVec.toNat_inj, byteMbz_toNat, wordOf_toNat, byteImm_toNat, BitVec.toNat_zero]
  omega

@[simp] theorem byteField_wordOf_byte (op a : BitVec 8) (byte : Byte) :
    byteField (wordOf op a (0#40 ++ byte)) = byte := by
  have := byte.isLt
  rw [← BitVec.toNat_inj, byteField_toNat, wordOf_toNat, byteImm_toNat]
  omega

/-- In format R the immediate is `LEN ‖ BASE` when its must-be-zero bits are zero. -/
theorem immField_of_regionMbz {w : Word} (h : regionMbz w = 0#16) : immField w = 0#16 ++ lenField w ++ baseField w := by
  rw [← BitVec.toNat_inj, regionMbz_toNat, BitVec.toNat_zero] at h
  rw [← BitVec.toNat_inj, regionImm_toNat, immField_toNat, lenField_toNat, baseField_toNat]
  omega

/-- In format B the immediate is `BYTE` when its must-be-zero bits are zero. -/
theorem immField_of_byteMbz {w : Word} (h : byteMbz w = 0#40) : immField w = 0#40 ++ byteField w := by
  rw [← BitVec.toNat_inj, byteMbz_toNat, BitVec.toNat_zero] at h
  rw [← BitVec.toNat_inj, byteImm_toNat, immField_toNat, byteField_toNat]
  omega

theorem wordOf_eq {w : Word} {op a : BitVec 8} {imm : BitVec 48} (hop : opField w = op) (ha : aField w = a)
    (himm : immField w = imm) : wordOf op a imm = w := by
  rw [← hop, ← ha, ← himm, wordOf_fields]

/-! ### What each format decodes to, and that the word is then the command's own (rule R47) -/

theorem whenZero_eq_command {z : Bool} {w : Word} {i j : Instr} :
    whenZero z w i = .command j ↔ z = true ∧ i = j := by
  cases z <;> simp [whenZero]

section Formats

variable {w : Word} {j : Instr}

theorem decodeN_eq_command {i : Instr} :
    decodeN w i = .command j ↔ aField w = 0#8 ∧ immField w = 0#48 ∧ i = j := by
  simp [decodeN, whenZero_eq_command, and_assoc]

theorem decodeF_eq_command {i : BitVec 8 → Instr} :
    decodeF w i = .command j ↔ immField w = 0#48 ∧ i (aField w) = j := by
  simp [decodeF, whenZero_eq_command]

theorem decodeS_eq_command : decodeS w = .command j ↔ Instr.setf (aField w) (immField w) = j := by
  simp [decodeS]

theorem decodeRCompute_eq_command :
    decodeRCompute w = .command j ↔
      regionMbz w = 0#16 ∧ Instr.csumCompute (baseField w) (lenField w) (aField w) = j := by
  simp [decodeRCompute, whenZero_eq_command]

theorem decodeRVerify_eq_command :
    decodeRVerify w = .command j ↔
      aField w = 0#8 ∧ regionMbz w = 0#16 ∧ Instr.csumVerify (baseField w) (lenField w) = j := by
  simp [decodeRVerify, whenZero_eq_command, and_assoc]

theorem decodeB_eq_command :
    decodeB w = .command j ↔ aField w = 0#8 ∧ byteMbz w = 0#40 ∧ Instr.framePutb (byteField w) = j := by
  simp [decodeB, whenZero_eq_command, and_assoc]

theorem encode_of_decodeS (hop : opField w = 0x01#8) (h : decodeS w = .command j) : encode j = w := by
  obtain rfl := decodeS_eq_command.mp h
  exact wordOf_eq hop rfl rfl

theorem encode_of_decodeRCompute (hop : opField w = 0x30#8) (h : decodeRCompute w = .command j) :
    encode j = w := by
  obtain ⟨hmbz, rfl⟩ := decodeRCompute_eq_command.mp h
  exact wordOf_eq hop rfl (immField_of_regionMbz hmbz)

theorem encode_of_decodeRVerify (hop : opField w = 0x31#8) (h : decodeRVerify w = .command j) :
    encode j = w := by
  obtain ⟨ha, hmbz, rfl⟩ := decodeRVerify_eq_command.mp h
  exact wordOf_eq hop ha (immField_of_regionMbz hmbz)

theorem encode_of_decodeB (hop : opField w = 0x41#8) (h : decodeB w = .command j) : encode j = w := by
  obtain ⟨ha, hmbz, rfl⟩ := decodeB_eq_command.mp h
  exact wordOf_eq hop ha (immField_of_byteMbz hmbz)

variable {op : BitVec 8} (hop : opField w = op)

include hop

/-- Format N leaves nothing but `OP`. -/
theorem encode_of_decodeN {i : Instr} (hi : encode i = wordOf op 0#8 0#48) (h : decodeN w i = .command j) :
    encode j = w := by
  obtain ⟨ha, himm, rfl⟩ := decodeN_eq_command.mp h
  exact hi.trans (wordOf_eq hop ha himm)

/-- Format F leaves nothing but `OP` and `A`. -/
theorem encode_of_decodeF {i : BitVec 8 → Instr} (hi : ∀ a, encode (i a) = wordOf op a 0#48)
    (h : decodeF w i = .command j) : encode j = w := by
  obtain ⟨himm, rfl⟩ := decodeF_eq_command.mp h
  exact (hi _).trans (wordOf_eq hop rfl himm)

end Formats

/-- Settles O1: `OP` selects the arm of the decoder, and its format reads back each operand. -/
theorem decodeOfEncode : Obligations.DecodeOfEncode := by
  intro i
  cases i with
  | setf fid val => simp [encode, decode, decodeS_eq_command]
  | serMac fid | serIp4 fid => simp [encode, decode, decodeF_eq_command]
  | packEth | packArph | packArpp | packIp4 | packUdp | frameClear => simp [encode, decode, decodeN_eq_command]
  | csumCompute base len cw => simp [encode, decode, decodeRCompute_eq_command]
  | csumVerify base len => simp [encode, decode, decodeRVerify_eq_command]
  | framePutb byte => simp [encode, decode, decodeB_eq_command]

/-- Settles O2: along the arms of the decoder, each of which knows `OP` and the must-be-zero bits of its format. -/
theorem encodeOfDecode : Obligations.EncodeOfDecode := by
  intro w i h
  unfold decode at h
  rcases ite_eq_iff.mp h with ⟨hop, h⟩ | ⟨-, h⟩
  · exact encode_of_decodeS hop h
  rcases ite_eq_iff.mp h with ⟨hop, h⟩ | ⟨-, h⟩
  · exact encode_of_decodeF hop (fun _ => rfl) h
  rcases ite_eq_iff.mp h with ⟨hop, h⟩ | ⟨-, h⟩
  · exact encode_of_decodeF hop (fun _ => rfl) h
  rcases ite_eq_iff.mp h with ⟨hop, h⟩ | ⟨-, h⟩
  · exact encode_of_decodeN hop rfl h
  rcases ite_eq_iff.mp h with ⟨hop, h⟩ | ⟨-, h⟩
  · exact encode_of_decodeN hop rfl h
  rcases ite_eq_iff.mp h with ⟨hop, h⟩ | ⟨-, h⟩
  · exact encode_of_decodeN hop rfl h
  rcases ite_eq_iff.mp h with ⟨hop, h⟩ | ⟨-, h⟩
  · exact encode_of_decodeN hop rfl h
  rcases ite_eq_iff.mp h with ⟨hop, h⟩ | ⟨-, h⟩
  · exact encode_of_decodeN hop rfl h
  rcases ite_eq_iff.mp h with ⟨hop, h⟩ | ⟨-, h⟩
  · exact encode_of_decodeRCompute hop h
  rcases ite_eq_iff.mp h with ⟨hop, h⟩ | ⟨-, h⟩
  · exact encode_of_decodeRVerify hop h
  rcases ite_eq_iff.mp h with ⟨hop, h⟩ | ⟨-, h⟩
  · exact encode_of_decodeN hop rfl h
  rcases ite_eq_iff.mp h with ⟨hop, h⟩ | ⟨-, h⟩
  · exact encode_of_decodeB hop h
  cases h

/-! ### The opcode table (rule R58) -/

/-- A field whose bits the mask all covers is the pattern's. -/
theorem field_of_selectedBy {r : OpcodeRow} {w : Word} {start n : Nat} (h : r.selectedBy w = true)
    (hmask : r.mask.extractLsb' start n = BitVec.allOnes n) :
    w.extractLsb' start n = r.pattern.extractLsb' start n := by
  have hfield := congrArg (BitVec.extractLsb' start n) (eq_of_beq h)
  rwa [BitVec.extractLsb'_and, hmask, BitVec.and_allOnes] at hfield

/-- Settles O4: every mask covers `OP`, and no two rows have the same opcode. -/
theorem opcodeRowsAreDisjoint : Obligations.OpcodeRowsAreDisjoint := by
  have hmask : ∀ r ∈ opcodeTable, opField r.mask = BitVec.allOnes 8 := by decide
  have hopcodes : ∀ r ∈ opcodeTable, ∀ q ∈ opcodeTable, opField r.pattern = opField q.pattern → r = q := by decide
  intro w r hr q hq hrw hqw
  exact hopcodes r hr q hq ((field_of_selectedBy hrw (hmask r hr)).symm.trans (field_of_selectedBy hqw (hmask q hq)))

theorem selectsRow_encode (i : Instr) : Laws.WordSelectsRow.Statement i :=
  match i with
  | .setf fid val => Laws.WordSelectsRow.setf fid val
  | .serMac fid => Laws.WordSelectsRow.serMac fid
  | .serIp4 fid => Laws.WordSelectsRow.serIp4 fid
  | .packEth => Laws.WordSelectsRow.packEth
  | .packArph => Laws.WordSelectsRow.packArph
  | .packArpp => Laws.WordSelectsRow.packArpp
  | .packIp4 => Laws.WordSelectsRow.packIp4
  | .packUdp => Laws.WordSelectsRow.packUdp
  | .csumCompute base len cw => Laws.WordSelectsRow.csumCompute base len cw
  | .csumVerify base len => Laws.WordSelectsRow.csumVerify base len
  | .frameClear => Laws.WordSelectsRow.frameClear
  | .framePutb byte => Laws.WordSelectsRow.framePutb byte

/-- A row whose mask covers every bit selects its pattern alone. -/
theorem eq_of_selectedBy_full {r : OpcodeRow} {w : Word} (h : r.selectedBy w = true)
    (hmask : r.mask = BitVec.allOnes 64) : r.pattern = w := by
  have hw := eq_of_beq h
  rw [hmask, BitVec.and_allOnes] at hw
  exact hw.symm

/-- A word that selects a row is the word of a command. -/
theorem exists_encode_of_selectedBy {r : OpcodeRow} {w : Word} (hr : r ∈ opcodeTable) (h : r.selectedBy w = true) :
    ∃ i, encode i = w := by
  simp only [opcodeTable, List.mem_cons, List.not_mem_nil, or_false] at hr
  rcases hr with rfl | rfl | rfl | rfl | rfl | rfl | rfl | rfl | rfl | rfl | rfl | rfl
  · exact ⟨.setf (aField w) (immField w), wordOf_eq (field_of_selectedBy h (by decide)) rfl rfl⟩
  · exact ⟨.serMac (aField w),
      wordOf_eq (field_of_selectedBy h (by decide)) rfl (field_of_selectedBy h (by decide))⟩
  · exact ⟨.serIp4 (aField w),
      wordOf_eq (field_of_selectedBy h (by decide)) rfl (field_of_selectedBy h (by decide))⟩
  · exact ⟨.packEth, eq_of_selectedBy_full h (by decide)⟩
  · exact ⟨.packArph, eq_of_selectedBy_full h (by decide)⟩
  · exact ⟨.packArpp, eq_of_selectedBy_full h (by decide)⟩
  · exact ⟨.packIp4, eq_of_selectedBy_full h (by decide)⟩
  · exact ⟨.packUdp, eq_of_selectedBy_full h (by decide)⟩
  · exact ⟨.csumCompute (baseField w) (lenField w) (aField w),
      wordOf_eq (field_of_selectedBy h (by decide)) rfl
        (immField_of_regionMbz (field_of_selectedBy h (by decide)))⟩
  · exact ⟨.csumVerify (baseField w) (lenField w),
      wordOf_eq (field_of_selectedBy h (by decide)) (field_of_selectedBy h (by decide))
        (immField_of_regionMbz (field_of_selectedBy h (by decide)))⟩
  · exact ⟨.frameClear, eq_of_selectedBy_full h (by decide)⟩
  · exact ⟨.framePutb (byteField w),
      wordOf_eq (field_of_selectedBy h (by decide)) (field_of_selectedBy h (by decide))
        (immField_of_byteMbz (field_of_selectedBy h (by decide)))⟩

/-- A word that decodes to a command selects the row of that command's mnemonic. -/
theorem selectsRow_of_decode {w : Word} {i : Instr} (h : decode w = .command i) :
    ∃ r ∈ opcodeTable, r.selectedBy w = true ∧ r.mnemonic = i.mnemonic := by
  obtain ⟨r, hr, hname, hsel⟩ := selectsRow_encode i
  rw [encodeOfDecode w i h] at hsel
  exact ⟨r, hr, hsel, hname⟩

/-- Settles O3: the words of the table and those of the decoder are both the words of the encoder. -/
theorem commandsAreTheTableRows : Obligations.CommandsAreTheTableRows := by
  intro w
  refine ⟨⟨fun h => ?_, fun ⟨i, hi⟩ => ?_⟩, fun i => selectsRow_of_decode⟩
  · obtain ⟨r, hr, hsel⟩ := List.any_eq_true.mp h
    obtain ⟨i, rfl⟩ := exists_encode_of_selectedBy hr hsel
    exact ⟨i, decodeOfEncode i⟩
  · obtain ⟨r, hr, hsel, -⟩ := selectsRow_of_decode hi
    exact List.any_eq_true.mpr ⟨r, hr, hsel⟩

/-! ### Words written out, and words that are no command (rules R50, R53, R54) -/

/-- Settles O5: nine words, by evaluation of the decoder. -/
theorem sampleWordsDecode : Obligations.SampleWordsDecode := by
  unfold Obligations.SampleWordsDecode
  decide

/-- The word's opcode is unassigned (R53), or a bit that its format marks must-be-zero is set (R47, R54). -/
def BreaksFormat (w : Word) : Prop :=
  opField w ∉ [0x01#8, 0x10#8, 0x11#8, 0x20#8, 0x21#8, 0x22#8, 0x23#8, 0x24#8, 0x30#8, 0x31#8, 0x40#8, 0x41#8]
  ∨ opField w ∈ [0x20#8, 0x21#8, 0x22#8, 0x23#8, 0x24#8, 0x40#8] ∧ (aField w ≠ 0 ∨ immField w ≠ 0)
  ∨ opField w ∈ [0x10#8, 0x11#8] ∧ immField w ≠ 0
  ∨ opField w = 0x30#8 ∧ regionMbz w ≠ 0
  ∨ opField w = 0x31#8 ∧ (aField w ≠ 0 ∨ regionMbz w ≠ 0)
  ∨ opField w = 0x41#8 ∧ (aField w ≠ 0 ∨ byteMbz w ≠ 0)

/-- The opcode of an encoded command is assigned, and the must-be-zero bits of its format read back as zero. -/
theorem not_breaksFormat_encode (i : Instr) : ¬ BreaksFormat (encode i) := by
  cases i with
  | setf fid val | serMac fid | serIp4 fid => simp [BreaksFormat, encode]
  | packEth | packArph | packArpp | packIp4 | packUdp | frameClear => simp [BreaksFormat, encode]
  | csumCompute base len cw | csumVerify base len => simp [BreaksFormat, encode]
  | framePutb byte => simp [BreaksFormat, encode]

/-- A word that breaks its format is no command's, so that it decodes to none. -/
theorem decode_of_breaksFormat {w : Word} (h : BreaksFormat w) : ∃ why, decode w = .illegal why := by
  cases hd : decode w with
  | illegal why => exact ⟨why, rfl⟩
  | command i => exact absurd (encodeOfDecode w i hd ▸ h) (not_breaksFormat_encode i)

end Sys2Proof

namespace Sys2Proof.Machine

theorem issueWord_of_illegal {w : Word} {why : IllegalWord} (h : decode w = .illegal why) (s : State) :
    issueWord w s = illegalCommand s := by
  rw [issueWord, h]

theorem illegalCommand_ready {s : State} (hs : Ready s) : illegalCommand s = .next (s.takeFault .illegalCmd) :=
  runCommand_raise hs rfl

/-- Settles O7: the word decodes to no command, and the fault is entered in the block whose host has made the move. -/
theorem illegalWordsFault : Obligations.IllegalWordsFault := by
  intro w h s rest hs hmoves
  obtain ⟨why, hd⟩ := decode_of_breaksFormat (w := w) h
  rw [step_move hmoves]
  exact (issueWord_of_illegal hd _).trans (illegalCommand_ready hs)

end Sys2Proof.Machine

/-! PROOFS. The Checksum Engine: the fold in closed form (rules R66, R67), the masked fold and the laws of the checksum
(R68, R72, R73), and the two commands (R69, R70). -/

namespace Sys2Proof.Machine

/-! ### The carry loop (rules R66, R67(b)) -/

theorem upperHalf_eq_zero_iff {acc : BitVec 32} : acc.extractLsb' 16 16 = 0#16 ↔ acc.toNat < 65536 := by
  rw [← BitVec.toNat_inj, BitVec.extractLsb'_toNat, Nat.shiftRight_eq_div_pow, BitVec.toNat_zero]
  omega

theorem carryPass_of_lt {acc : BitVec 32} (h : acc.toNat < 65536) : carryPass acc = acc := by
  rw [← BitVec.toNat_inj, carryPass_toNat]
  omega

theorem carryPass_carryPass_lt (acc : BitVec 32) : (carryPass (carryPass acc)).toNat < 65536 := by
  rw [carryPass_toNat, carryPass_toNat]
  omega

/-- A sum without carry ends the loop. -/
theorem carryLoop_of_lt (fuel : Nat) {acc : BitVec 32} (h : acc.toNat < 65536) : carryLoop fuel acc = acc := by
  cases fuel with
  | zero => rfl
  | succ fuel => rw [carryLoop, if_pos (upperHalf_eq_zero_iff.mpr h)]

/-- A pass over a sum without carry changes nothing, so that the loop's test may be left out. -/
theorem carryLoop_succ (fuel : Nat) (acc : BitVec 32) : carryLoop (fuel + 1) acc = carryLoop fuel (carryPass acc) := by
  by_cases h : acc.toNat < 65536
  · rw [carryPass_of_lt h, carryLoop_of_lt _ h, carryLoop_of_lt _ h]
  · rw [carryLoop, if_neg (mt upperHalf_eq_zero_iff.mp h)]

/-- The carry loop is two passes (R67(b)). -/
theorem carryLoop_eq_two_passes {fuel : Nat} (h : 2 ≤ fuel) (acc : BitVec 32) :
    carryLoop fuel acc = carryPass (carryPass acc) := by
  obtain ⟨n, rfl⟩ := Nat.exists_eq_add_of_le' h
  rw [carryLoop_succ, carryLoop_succ, carryLoop_of_lt n (carryPass_carryPass_lt acc)]

/-- Settles O42: both loops are the two passes, after which the upper half is zero. -/
theorem carryLoopTakesAtMostTwoPasses : Obligations.CarryLoopTakesAtMostTwoPasses := by
  intro acc fuel h
  rw [carryLoop_eq_two_passes h, carryLoop_eq_two_passes (Nat.le_refl 2)]
  exact ⟨rfl, upperHalf_eq_zero_iff.mpr (carryPass_carryPass_lt acc)⟩

/-! ### The closed form of a sum (rule R67(c)) -/

theorem closedFold_of_lt {n : Nat} (h : n < 65536) : closedFold n = n := by
  unfold closedFold
  split <;> omega

theorem closedFold_le (n : Nat) : closedFold n ≤ 65535 := by
  unfold closedFold
  split <;> omega

theorem closedFold_eq_zero {n : Nat} : closedFold n = 0 ↔ n = 0 := by
  unfold closedFold
  split <;> omega

theorem closedFold_mod (n : Nat) : closedFold n % 65535 = n % 65535 := by
  unfold closedFold
  split <;> omega

/-- Whether the sum is zero and its residue modulo 65535 are all that the closed form depends on. -/
theorem closedFold_congr {n m : Nat} (hzero : n = 0 ↔ m = 0) (hmod : n % 65535 = m % 65535) :
    closedFold n = closedFold m := by
  unfold closedFold
  split <;> split <;> omega

/-- The fold 0xFFFF is that of the positive multiples of 0xFFFF. -/
theorem closedFold_eq_allOnes {n : Nat} : closedFold n = 65535 ↔ 0 < n ∧ n % 65535 = 0 := by
  unfold closedFold
  split <;> omega

/-- Adding the carries into the lower half keeps the closed form: 65536 is 1 modulo 65535. -/
theorem closedFold_carry (n : Nat) : closedFold (n % 65536 + n / 65536) = closedFold n :=
  closedFold_congr (by omega) (by omega)

/-- Summands may be folded first. -/
theorem closedFold_add (n m : Nat) : closedFold (closedFold n + closedFold m) = closedFold (n + m) := by
  refine closedFold_congr ?_ ?_
  · rw [Nat.add_eq_zero_iff, Nat.add_eq_zero_iff, closedFold_eq_zero, closedFold_eq_zero]
  · rw [Nat.add_mod, closedFold_mod, closedFold_mod, ← Nat.add_mod]

/-! ### The fold of a word list (rule R66) -/

theorem sumWords_toNat (acc : BitVec 32) (ws : List (BitVec 16)) :
    (sumWords acc ws).toNat = (acc.toNat + (ws.map BitVec.toNat).sum) % 2 ^ 32 := by
  induction ws generalizing acc with
  | nil => exact (Nat.mod_eq_of_lt acc.isLt).symm
  | cons w ws ih =>
    rw [sumWords, ih, BitVec.toNat_add, BitVec.toNat_setWidth_of_le (by omega), List.map_cons, List.sum_cons,
      Nat.mod_add_mod, Nat.add_assoc]

theorem foldWords_toNat (ws : List (BitVec 16)) : (foldWords ws).toNat = closedFold (sumWords 0#32 ws).toNat := by
  generalize hacc : sumWords 0#32 ws = acc
  have hlt := carryPass_carryPass_lt acc
  calc (foldWords ws).toNat
      = (carryPass (carryPass acc)).toNat % 2 ^ 16 := by
        rw [foldWords, hacc, carryLoop_eq_two_passes (by decide), BitVec.extractLsb'_toNat, Nat.shiftRight_zero]
    _ = (carryPass (carryPass acc)).toNat := Nat.mod_eq_of_lt hlt
    _ = closedFold (carryPass (carryPass acc)).toNat := (closedFold_of_lt hlt).symm
    _ = closedFold acc.toNat := by rw [carryPass_toNat, closedFold_carry, carryPass_toNat, closedFold_carry]

/-- The sum of a word list does not depend on its order (R67(d)). -/
theorem foldWords_perm {ws vs : List (BitVec 16)} (h : ws.Perm vs) : foldWords ws = foldWords vs := by
  rw [← BitVec.toNat_inj, foldWords_toNat, foldWords_toNat, sumWords_toNat, sumWords_toNat,
    (h.map BitVec.toNat).sum_eq]

/-- Settles O44: the two word lists have the same sum. -/
theorem foldIgnoresTheOrderOfWords : Obligations.FoldIgnoresTheOrderOfWords := by
  intro bs cs ws vs hws hvs hperm
  rw [fold, fold, hws, hvs, Option.map_some, Option.map_some, foldWords_perm hperm]

/-! ### The exact sum of a byte sequence (rule R67(a)) -/

/-- The exact sum of a byte sequence is that of its words. -/
theorem wordSum_of_bigEndianWords {bs : List Byte} {ws : List (BitVec 16)} (h : bigEndianWords bs = some ws) :
    wordSum bs = (ws.map BitVec.toNat).sum := by
  induction bs using bigEndianWords.induct generalizing ws with
  | case1 =>
    obtain rfl : [] = ws := Option.some.inj h
    rfl
  | case2 b => cases h
  | case3 hi lo rest ih =>
    obtain ⟨vs, hvs, rfl⟩ := Option.map_eq_some_iff.mp h
    have hword : (hi ++ lo : BitVec 16).toNat = hi.toNat * 256 + lo.toNat := toNat_concat hi lo
    rw [wordSum, ih hvs, List.map_cons, List.sum_cons, hword]
    omega

/-- Each two bytes add at most 0xFFFF. -/
theorem two_mul_wordSum_le (bs : List Byte) : 2 * wordSum bs ≤ 65535 * bs.length := by
  induction bs using bigEndianWords.induct with
  | case1 => exact Nat.le_refl 0
  | case2 b => exact Nat.zero_le _
  | case3 hi lo rest ih =>
    have := hi.isLt
    have := lo.isLt
    simp only [wordSum, List.length_cons]
    omega

/-- The 32-bit sum does not wrap (R67(a)). -/
theorem wordSum_lt {bs : List Byte} (h : bs.length ≤ maxFoldBytes) : wordSum bs < 2 ^ 32 := by
  have := two_mul_wordSum_le bs
  unfold maxFoldBytes at h
  omega

theorem wordSum_append {bs : List Byte} (h : bs.length % 2 = 0) (cs : List Byte) :
    wordSum (bs ++ cs) = wordSum bs + wordSum cs := by
  induction bs using bigEndianWords.induct with
  | case1 => exact (Nat.zero_add _).symm
  | case2 b => cases h
  | case3 hi lo rest ih =>
    rw [List.length_cons, List.length_cons] at h
    simp only [List.cons_append, wordSum]
    rw [ih (by omega)]
    omega

theorem wordSum_eq_zero {bs : List Byte} (h : bs.length % 2 = 0) : wordSum bs = 0 ↔ ∀ b ∈ bs, b = 0 := by
  induction bs using bigEndianWords.induct with
  | case1 => exact iff_of_true rfl (List.forall_mem_nil _)
  | case2 b => cases h
  | case3 hi lo rest ih =>
    rw [List.length_cons, List.length_cons] at h
    have hword : 256 * hi.toNat + lo.toNat + wordSum rest = 0 ↔ hi.toNat = 0 ∧ lo.toNat = 0 ∧ wordSum rest = 0 := by
      omega
    rw [wordSum, hword, ih (by omega), List.forall_mem_cons, List.forall_mem_cons, ← BitVec.toNat_inj,
      ← BitVec.toNat_inj]
    rfl

/-- The weight of byte `k` in the exact sum: the first byte of a word is its upper half (R66). -/
def byteWeight (k : Nat) : Nat := if k % 2 = 0 then 256 else 1

theorem byteWeight_cases (k : Nat) : byteWeight k = 256 ∨ byteWeight k = 1 := by
  unfold byteWeight
  split
  · exact .inl rfl
  · exact .inr rfl

theorem byteWeight_even (c : Nat) : byteWeight (2 * c) = 256 := if_pos (by omega)

theorem byteWeight_odd (c : Nat) : byteWeight (2 * c + 1) = 1 := if_neg (by omega)

theorem byteWeight_add_two (k : Nat) : byteWeight (k + 2) = byteWeight k := by
  rw [byteWeight, Nat.add_mod_right, byteWeight]

/-- One byte replaced: its weighted value leaves the exact sum and the new one enters. -/
theorem wordSum_set {bs : List Byte} (heven : bs.length % 2 = 0) {k : Nat} (h : k < bs.length) (b : Byte) :
    wordSum (bs.set k b) + byteWeight k * bs[k].toNat = wordSum bs + byteWeight k * b.toNat := by
  induction bs using bigEndianWords.induct generalizing k with
  | case1 => exact absurd h (Nat.not_lt_zero k)
  | case2 x => cases heven
  | case3 hi lo rest ih =>
    match k with
    | 0 =>
      simp only [List.set_cons_zero, List.getElem_cons_zero, wordSum, byteWeight_even 0]
      omega
    | 1 =>
      simp only [List.set_cons_succ, List.set_cons_zero, List.getElem_cons_succ, List.getElem_cons_zero, wordSum,
        byteWeight_odd 0]
      omega
    | k + 2 =>
      rw [List.length_cons, List.length_cons] at h heven
      have := ih (by omega) (k := k) (by omega)
      simp only [List.set_cons_succ, List.getElem_cons_succ, wordSum, byteWeight_add_two]
      omega

/-- One word replaced (R68, R72): it leaves the exact sum and the new one enters. -/
theorem wordSum_replaceWord {bs : List Byte} (heven : bs.length % 2 = 0) {c : Nat} (h : 2 * c + 1 < bs.length)
    (hi lo : Byte) :
    wordSum (replaceWord bs c hi lo) + (256 * bs[2 * c].toNat + bs[2 * c + 1].toNat)
      = wordSum bs + (256 * hi.toNat + lo.toNat) := by
  have hupper := wordSum_set heven (k := 2 * c) (by omega) hi
  have hlower := wordSum_set (bs := bs.set (2 * c) hi) (by simpa using heven) (k := 2 * c + 1) (by simpa using h) lo
  rw [byteWeight_even] at hupper
  rw [byteWeight_odd, List.getElem_set_ne (by omega)] at hlower
  unfold replaceWord
  omega

/-- Against the masked sequence, what is written to the word enters the exact sum. -/
theorem wordSum_replaceWord_eq_masked {bs : List Byte} (heven : bs.length % 2 = 0) {c : Nat}
    (h : 2 * c + 1 < bs.length) (hi lo : Byte) :
    wordSum (replaceWord bs c hi lo) = wordSum (replaceWord bs c 0#8 0#8) + (256 * hi.toNat + lo.toNat) := by
  have hword := wordSum_replaceWord heven h hi lo
  have hmasked := wordSum_replaceWord heven h 0#8 0#8
  rw [BitVec.toNat_zero] at hmasked
  omega

/-- A 16-bit value is its two octets, the upper one first (R7). -/
theorem toNat_octets (v : BitVec 16) : 256 * (v.extractLsb' 8 8).toNat + (v.extractLsb' 0 8).toNat = v.toNat := by
  have := v.isLt
  simp only [BitVec.extractLsb'_toNat, Nat.shiftRight_eq_div_pow]
  omega

theorem wordSum_be16_append (v : BitVec 16) (bs : List Byte) : wordSum (be16 v ++ bs) = v.toNat + wordSum bs :=
  congrArg (· + wordSum bs) (toNat_octets v)

theorem wordSum_be16 (v : BitVec 16) : wordSum (be16 v) = v.toNat := toNat_octets v

/-! ### The fold in closed form (rules R66, R67, R75) -/

/-- Within the bound the exact sum is the engine's, and its closed form is the fold. -/
theorem foldWords_of_bigEndianWords {bs : List Byte} {ws : List (BitVec 16)} (hlen : bs.length ≤ maxFoldBytes)
    (hws : bigEndianWords bs = some ws) : (foldWords ws).toNat = closedFold (wordSum bs) := by
  rw [foldWords_toNat, sumWords_toNat, ← wordSum_of_bigEndianWords hws, BitVec.toNat_zero, Nat.zero_add,
    Nat.mod_eq_of_lt (wordSum_lt hlen)]

/-- What the fold of a sequence within the bound can be. -/
theorem fold_eq_some_iff {bs : List Byte} {sum : BitVec 16} (hlen : bs.length ≤ maxFoldBytes) :
    fold bs = some sum ↔ bs.length % 2 = 0 ∧ sum.toNat = closedFold (wordSum bs) := by
  rcases Nat.mod_two_eq_zero_or_one bs.length with heven | hodd
  · obtain ⟨ws, hws, -⟩ := bigEndianWords_even bs heven
    rw [fold, hws, Option.map_some, Option.some.injEq, ← BitVec.toNat_inj, foldWords_of_bigEndianWords hlen hws,
      and_iff_right heven, eq_comm]
  · simp [fold, bigEndianWords_odd bs hodd, hodd]

/-- Settles O41: an even length has a fold, in closed form within the bound; an odd one has no words. -/
theorem foldHasItsClosedForm : Obligations.FoldHasItsClosedForm := by
  intro bs
  constructor
  · intro heven hlen
    obtain ⟨sum, hsum⟩ := fold_isSome heven
    exact ⟨sum, hsum, ((fold_eq_some_iff hlen).mp hsum).2⟩
  · intro hodd
    rw [fold, bigEndianWords_odd bs hodd, Option.map_none]

/-- Settles O43: a closed form is zero only for the sum zero, and a sum only for zero bytes. -/
theorem foldIsZeroOnlyOnZeros : Obligations.FoldIsZeroOnlyOnZeros := by
  intro bs sum hlen hfold
  obtain ⟨heven, hsum⟩ := (fold_eq_some_iff hlen).mp hfold
  rw [← wordSum_eq_zero heven, ← closedFold_eq_zero, ← hsum, ← BitVec.toNat_inj]
  rfl

/-- Settles O45: exact sums add, and summands may be folded first. -/
theorem foldOfConcatenation : Obligations.FoldOfConcatenation := by
  intro bs cs a b hlen hbs hcs
  obtain ⟨hbsEven, ha⟩ := (fold_eq_some_iff (by omega)).mp hbs
  obtain ⟨hcsEven, hb⟩ := (fold_eq_some_iff (by omega)).mp hcs
  have heven : (bs ++ cs).length % 2 = 0 := by rw [List.length_append]; omega
  obtain ⟨sum, hsum⟩ := fold_isSome heven
  obtain ⟨-, htotal⟩ := (fold_eq_some_iff (by rwa [List.length_append])).mp hsum
  have hfolds : (be16 a ++ be16 b).length = 4 := rfl
  rw [hsum, eq_comm, fold_eq_some_iff (hfolds ▸ by decide), hfolds, wordSum_be16_append, wordSum_be16, ha, hb,
    closedFold_add, ← wordSum_append hbsEven]
  exact ⟨rfl, htotal⟩

/-! ### The masked fold and the laws of the checksum (rules R68, R72, R73) -/

theorem getElem?_replaceWord {bs : List Byte} {k : Nat} (h : k < bs.length) (c : Nat) (hi lo : Byte) :
    (replaceWord bs c hi lo)[k]? = if k = 2 * c then some hi else if k = 2 * c + 1 then some lo else bs[k]? := by
  rw [replaceWord]
  by_cases hlower : k = 2 * c + 1
  · subst hlower
    rw [List.getElem?_set_self (by rwa [List.length_set]), if_neg (by omega), if_pos rfl]
  · rw [List.getElem?_set_ne (Ne.symm hlower), if_neg hlower]
    by_cases hupper : k = 2 * c
    · subst hupper
      rw [List.getElem?_set_self h, if_pos rfl]
    · rw [List.getElem?_set_ne (Ne.symm hupper), if_neg hupper]

/-- What the masked fold of a sequence within the bound can be. -/
theorem foldMasked_eq_some_iff {bs : List Byte} {c : Nat} {sum : BitVec 16} (hlen : bs.length ≤ maxFoldBytes) :
    foldMasked bs c = some sum ↔ bs.length % 2 = 0 ∧ sum.toNat = closedFold (wordSum (replaceWord bs c 0#8 0#8)) := by
  rw [foldMasked, fold_eq_some_iff (by rwa [length_replaceWord]), length_replaceWord]

/-- Settles O58: the masked word leaves the exact sum, and zero enters. -/
theorem maskedFoldLeavesOneWordOut : Obligations.MaskedFoldLeavesOneWordOut := by
  intro bs c h
  refine ⟨fun heven hlen => ?_, fun hi lo k hk => getElem?_replaceWord hk c hi lo⟩
  obtain ⟨sum, hsum⟩ := foldMasked_isSome c heven
  have hmasked := wordSum_replaceWord heven h 0#8 0#8
  obtain ⟨-, hclosed⟩ := (foldMasked_eq_some_iff hlen).mp hsum
  exact ⟨sum, hsum, hclosed.trans (congrArg closedFold (Nat.eq_sub_of_add_eq hmasked))⟩

/-- A sum and the complement of its fold together fold to 0xFFFF (R72). -/
theorem closedFold_add_complement (n : Nat) : closedFold (n + (65535 - closedFold n)) = 65535 := by
  have := closedFold_mod n
  have := closedFold_le n
  have := closedFold_eq_zero (n := n)
  rw [closedFold_eq_allOnes]
  omega

/-- Settles O46: the complement enters where zero stood. -/
theorem checksumRoundTrip : Obligations.ChecksumRoundTrip := by
  intro bs c r hlen hc hr
  obtain ⟨heven, hclosed⟩ := (foldMasked_eq_some_iff hlen).mp hr
  rw [fold_eq_some_iff (by rwa [length_replaceWord]), length_replaceWord,
    wordSum_replaceWord_eq_masked heven (by omega), toNat_octets, BitVec.toNat_not, hclosed]
  exact ⟨heven, (closedFold_add_complement _).symm⟩

/-- Whatever replaces one byte, the weighted change of the exact sum is too small for a multiple of 0xFFFF (R73). -/
theorem fold_set_ne {bs : List Byte} (hlen : bs.length ≤ maxFoldBytes) (hfold : fold bs = some 0xFFFF) {k : Nat}
    (h : k < bs.length) {b : Byte} (hb : b ≠ bs[k]) : fold (bs.set k b) ≠ some 0xFFFF := by
  intro hset
  obtain ⟨heven, hsum⟩ := (fold_eq_some_iff hlen).mp hfold
  obtain ⟨-, hsum'⟩ := (fold_eq_some_iff (by rwa [List.length_set])).mp hset
  obtain ⟨-, hmultiple⟩ := closedFold_eq_allOnes.mp hsum.symm
  obtain ⟨-, hmultiple'⟩ := closedFold_eq_allOnes.mp hsum'.symm
  have hchange := wordSum_set heven h b
  have := b.isLt
  have := bs[k].isLt
  rw [Ne, ← BitVec.toNat_inj] at hb
  rcases byteWeight_cases k with hw | hw <;> rw [hw] at hchange <;> omega

theorem oneBit_ne_zero {j : Nat} (h : j < 8) : (1#8 <<< j : Byte) ≠ 0#8 := by
  have hbits : ∀ j < 8, (1#8 <<< j : Byte) ≠ 0#8 := by decide
  exact hbits j h

/-- Settles O47: a byte with one bit changed is another byte. -/
theorem singleBitChangeIsDetected : Obligations.SingleBitChangeIsDetected := by
  intro bs k j h hlen hj hfold
  exact fold_set_ne hlen hfold h fun heq => oneBit_ne_zero hj (by simpa using heq)

/-! ### The two commands (rules R69, R70) -/

theorem wordOf_region (op a : BitVec 8) (len base : BitVec 16) :
    wordOf op a (0#16 ++ len ++ base) = op ++ a ++ 0#16 ++ len ++ base := by
  have h : (op ++ a ++ 0#16 ++ len ++ base : Word).toNat
      = (op ++ a ++ 0#16 ++ len ++ base : BitVec (8 + 8 + 16 + 16 + 16)).toNat := rfl
  rw [← BitVec.toNat_inj, wordOf_toNat, regionImm_toNat, h, toNat_concat, toNat_concat, toNat_concat, toNat_concat,
    BitVec.toNat_zero]
  omega

section Commands

variable {s : State} {base len : BitVec 16} {cw : BitVec 8}

/-- An odd length is refused before anything else (R153). -/
theorem exec_csumCompute_odd (hs : Ready s) (hodd : len.toNat % 2 = 1) :
    exec (.csumCompute base len cw) s = .next (s.takeFault .oddLength) := by
  refine runCommand_raise hs ?_
  rw [csumComputeBody, admitRegion_odd (getLsbD_zero_eq_true.mpr hodd), bind_error]

theorem exec_csumCompute_outside (hs : Ready s) (heven : len.toNat % 2 = 0)
    (h : s.flen.toNat < base.toNat + len.toNat ∨ len.toNat < 2 * cw.toNat + 2) :
    exec (.csumCompute base len cw) s = .next (s.takeFault .badRegion) := by
  refine runCommand_raise hs ?_
  by_cases hregion : s.flen.toNat < base.toNat + len.toNat
  · rw [csumComputeBody, admitRegion_outside (getLsbD_zero_eq_false.mpr heven) hregion, bind_error]
  · have hword := h.resolve_left hregion
    rw [csumComputeBody, admitRegion_eq_ok.mpr ⟨getLsbD_zero_eq_false.mpr heven, Nat.not_lt.mp hregion⟩, bind_ok,
      admitWord_outside hword, bind_error]

theorem exec_csumCompute_completes {bs : List Byte} {sum : BitVec 16} (hs : Ready s)
    (hregion : admitRegion s base len = .ok ()) (hword : admitWord len cw = .ok ())
    (hread : readRegion s base len = .ok bs) (hsum : foldMasked bs cw.toNat = some sum) :
    exec (.csumCompute base len cw) s = .next (s.setResult sum false) := by
  refine runCommand_ok hs ?_
  rw [csumComputeBody, hregion, bind_ok, hword, bind_ok, hread, bind_ok, foldedSum_eq_ok.mpr hsum, bind_ok]
  rfl

/-- An odd length is refused before anything else (R153). -/
theorem exec_csumVerify_odd (hs : Ready s) (hodd : len.toNat % 2 = 1) :
    exec (.csumVerify base len) s = .next (s.takeFault .oddLength) := by
  refine runCommand_raise hs ?_
  rw [csumVerifyBody, admitRegion_odd (getLsbD_zero_eq_true.mpr hodd), bind_error]

theorem exec_csumVerify_outside (hs : Ready s) (heven : len.toNat % 2 = 0)
    (h : s.flen.toNat < base.toNat + len.toNat) :
    exec (.csumVerify base len) s = .next (s.takeFault .badRegion) := by
  refine runCommand_raise hs ?_
  rw [csumVerifyBody, admitRegion_outside (getLsbD_zero_eq_false.mpr heven) h, bind_error]

theorem exec_csumVerify_completes {bs : List Byte} {sum : BitVec 16} (hs : Ready s)
    (hregion : admitRegion s base len = .ok ()) (hread : readRegion s base len = .ok bs)
    (hsum : fold bs = some sum) :
    exec (.csumVerify base len) s = .next (s.setResult sum (vokOfVerify sum)) := by
  refine runCommand_ok hs ?_
  rw [csumVerifyBody, hregion, bind_ok, hread, bind_ok, foldedSum_eq_ok.mpr hsum, bind_ok]
  rfl

end Commands

/-- Settles O22: the masked sequence is the one whose word is replaced by zeros. -/
theorem csumComputeFoldsMasked : Obligations.CsumComputeFoldsMasked := by
  refine ⟨fun base len cw => wordOf_region _ _ _ _, fun s base len cw hs =>
    ⟨exec_csumCompute_odd hs, exec_csumCompute_outside hs, ?_⟩⟩
  intro heven hinside hword bs hlen hbytes
  obtain ⟨sum, hsum⟩ := foldMasked_isSome (bs := bs) cw.toNat (hlen ▸ heven)
  refine ⟨sum, replaceWord bs cw.toNat 0#8 0#8, hsum, hsum, length_replaceWord _ _ _ _, fun k hk => ?_, ?_⟩
  · rw [getElem?_replaceWord hk, ite_or]
    rfl
  · exact exec_csumCompute_completes hs (admitRegion_eq_ok.mpr ⟨getLsbD_zero_eq_false.mpr heven, hinside⟩)
      (admitWord_eq_ok.mpr hword) (readRegion_eq_ok.mpr (readBytes_eq_some.mpr ⟨hlen, hbytes⟩)) hsum

/-- Settles O23: an admitted region has even length, so that its bytes have a fold. -/
theorem csumVerifyFolds : Obligations.CsumVerifyFolds := by
  refine ⟨fun base len => wordOf_region _ _ _ _, fun s base len hs =>
    ⟨exec_csumVerify_odd hs, exec_csumVerify_outside hs, ?_⟩⟩
  intro heven hinside bs hlen hbytes
  obtain ⟨sum, hsum⟩ := fold_isSome (bs := bs) (hlen ▸ heven)
  exact ⟨sum, hsum, exec_csumVerify_completes hs
    (admitRegion_eq_ok.mpr ⟨getLsbD_zero_eq_false.mpr heven, hinside⟩)
    (readRegion_eq_ok.mpr (readBytes_eq_some.mpr ⟨hlen, hbytes⟩)) hsum⟩

end Sys2Proof.Machine

/-! PROOFS. `SETF` and the address serializers (rules R81, R85, R86), and the octets of an address (R82 to R84, R87). -/

namespace Sys2Proof.Machine

/-! ### Octets and values (rules R82 to R84, R87) -/

section Octets

variable {n : Nat} (hi : BitVec n) (lo : Byte)

@[simp] theorem byteAt_append_zero : byteAt (hi ++ lo) 0 = lo := BitVec.extractLsb'_append_eq_right

@[simp] theorem byteAt_append_succ (k : Nat) : byteAt (hi ++ lo) (k + 1) = byteAt hi k := by
  rw [byteAt, BitVec.extractLsb'_append_eq_of_le (by omega)]
  rfl

@[simp] theorem byteAt_zero_byte : byteAt lo 0 = lo := BitVec.extractLsb'_eq_self

end Octets

theorem macBytes_macValue (o : Vector Byte 6) : macBytes (macValue o) = o.toList :=
  match o with
  | ⟨⟨[o0, o1, o2, o3, o4, o5]⟩, _⟩ => by simp [macBytes, be48, macValue]

theorem ip4Bytes_ip4Value (o : Vector Byte 4) : ip4Bytes (ip4Value o) = o.toList :=
  match o with
  | ⟨⟨[o0, o1, o2, o3]⟩, _⟩ => by simp [ip4Bytes, be32, ip4Value]

/-- The octets of a hardware address, octet 0 the most significant byte (R82). -/
def macOctets (v : BitVec 48) : Vector Byte 6 :=
  #v[byteAt v 5, byteAt v 4, byteAt v 3, byteAt v 2, byteAt v 1, byteAt v 0]

/-- The octets of a protocol address, octet 0 the most significant byte (R82). -/
def ip4Octets (v : BitVec 32) : Vector Byte 4 := #v[byteAt v 3, byteAt v 2, byteAt v 1, byteAt v 0]

/-- Octet `k` joins the bits above it. -/
theorem extractLsb'_append_byteAt {m : Nat} (v : BitVec m) (k n : Nat) :
    v.extractLsb' (8 * (k + 1)) n ++ byteAt v k = v.extractLsb' (8 * k) (n + 8) :=
  BitVec.extractLsb'_append_extractLsb'_eq_extractLsb' rfl

theorem macValue_macOctets (v : BitVec 48) : macValue (macOctets v) = v := by
  change v.extractLsb' (8 * (4 + 1)) 8 ++ byteAt v 4 ++ byteAt v 3 ++ byteAt v 2 ++ byteAt v 1 ++ byteAt v 0 = v
  rw [extractLsb'_append_byteAt, extractLsb'_append_byteAt v 3, extractLsb'_append_byteAt v 2,
    extractLsb'_append_byteAt v 1, extractLsb'_append_byteAt v 0]
  exact BitVec.extractLsb'_eq_self

theorem ip4Value_ip4Octets (v : BitVec 32) : ip4Value (ip4Octets v) = v := by
  change v.extractLsb' (8 * (2 + 1)) 8 ++ byteAt v 2 ++ byteAt v 1 ++ byteAt v 0 = v
  rw [extractLsb'_append_byteAt, extractLsb'_append_byteAt v 1, extractLsb'_append_byteAt v 0]
  exact BitVec.extractLsb'_eq_self

/-- Settles O48: `be48` and `be32` cut a value at its octets, and the octets joined again are the whole value. -/
theorem addressOctetsRoundTrip : Obligations.AddressOctetsRoundTrip :=
  ⟨macBytes_macValue, ip4Bytes_ip4Value, fun v => ⟨macOctets v, rfl, macValue_macOctets v⟩,
    fun v => ⟨ip4Octets v, rfl, ip4Value_ip4Octets v⟩⟩

/-! ### `SETF` (rule R81) -/

section Setf

variable {fid : BitVec 8} {f : FieldId} {val : BitVec 48} {v : BitVec f.width} {s : State}

theorem valueFits_eq_false : valueFits f val = false ↔ 2 ^ f.width ≤ val.toNat := by
  rw [Bool.eq_false_iff, Ne, valueFits_iff, Nat.not_lt]

/-- An immediate that a register can hold fits it (R48). -/
theorem valueFits_of_toNat_eq (h : v.toNat = val.toNat) : valueFits f val = true :=
  (valueFits_iff f val).mpr (h ▸ v.isLt)

/-- The value written is the immediate when that fits (R48). -/
theorem valueFor_eq (h : v.toNat = val.toNat) : valueFor f val = v := by
  rw [← BitVec.toNat_inj, valueFor, BitVec.toNat_setWidth, ← h, Nat.mod_eq_of_lt v.isLt]

/-- The two checks of the value, the width before the closed set (R81, R153). -/
theorem setfBody_id (f : FieldId) (val : BitVec 48) (s : State) :
    setfBody f.id val s =
      if valueFits f val = false then .error (.raise .badValue)
      else if f.legal (valueFor f val).toNat = false then .error (.raise .badValue)
      else .ok (s.setField f (valueFor f val)) := by
  rw [setfBody, fieldNamed_id]

theorem exec_setf_unnamed (hs : Ready s) (h : ∀ f : FieldId, f.id ≠ fid) :
    exec (.setf fid val) s = .next (s.takeFault .badField) := by
  refine runCommand_raise hs ?_
  rw [setfBody, fieldNamed_eq_none.mpr h]

theorem exec_setf_tooWide (hs : Ready s) (h : 2 ^ f.width ≤ val.toNat) :
    exec (.setf f.id val) s = .next (s.takeFault .badValue) := by
  refine runCommand_raise hs ?_
  rw [setfBody_id, if_pos (valueFits_eq_false.mpr h)]

theorem exec_setf_illegal (hs : Ready s) (hv : v.toNat = val.toNat) (h : f.legal val.toNat = false) :
    exec (.setf f.id val) s = .next (s.takeFault .badValue) := by
  refine runCommand_raise hs ?_
  rw [setfBody_id, valueFor_eq hv, hv, if_pos h, ite_self]

theorem exec_setf_completes (hs : Ready s) (hv : v.toNat = val.toNat) (h : f.legal val.toNat = true) :
    exec (.setf f.id val) s = .next (s.setField f v) := by
  refine runCommand_ok hs (setfBody_eq_ok.mpr ⟨f, rfl, valueFits_of_toNat_eq hv, ?_⟩)
  rw [valueFor_eq hv, hv]
  exact ⟨h, rfl⟩

end Setf

/-- Settles O14: one lemma per answer of `SETF`; of the registers the named one alone is written. -/
theorem setfWritesOneField : Obligations.SetfWritesOneField := by
  refine ⟨fun _ _ => rfl, fun s fid val hs => ⟨exec_setf_unnamed hs, ?_⟩⟩
  rintro f rfl
  refine ⟨exec_setf_tooWide hs, fun v hv => ⟨exec_setf_illegal hs hv, fun hlegal => ?_⟩⟩
  exact ⟨s.setField f v, exec_setf_completes hs hv hlegal, get_set_same s.regs f v,
    fun g => get_set_other s.regs v, rfl⟩

/-! ### The address serializers (rules R85, R86) -/

/-- The four registers of kind MAC (R12, R85). -/
theorem headerBytes_serMac {fid : BitVec 8} {r : FieldRegs} {reg : Option (BitVec 48)}
    (h : (fid, reg) ∈ [(0x00#8, r.ethDst), (0x01#8, r.ethSrc), (0x18#8, r.arpSha), (0x1A#8, r.arpTha)]) :
    headerBytes (.serMac fid) r = (need reg >>= fun v => .ok (macBytes v)) := by
  simp only [List.mem_cons, Prod.mk.injEq, List.not_mem_nil, or_false] at h
  rcases h with ⟨rfl, rfl⟩ | ⟨rfl, rfl⟩ | ⟨rfl, rfl⟩ | ⟨rfl, rfl⟩
  · exact serMacBytes_ethDst r
  · exact serMacBytes_ethSrc r
  · exact serMacBytes_arpSha r
  · exact serMacBytes_arpTha r

/-- The four registers of kind IP4 (R12, R86). -/
theorem headerBytes_serIp4 {fid : BitVec 8} {r : FieldRegs} {reg : Option (BitVec 32)}
    (h : (fid, reg) ∈ [(0x19#8, r.arpSpa), (0x1B#8, r.arpTpa), (0x29#8, r.ipSrc), (0x2A#8, r.ipDst)]) :
    headerBytes (.serIp4 fid) r = (need reg >>= fun v => .ok (ip4Bytes v)) := by
  simp only [List.mem_cons, Prod.mk.injEq, List.not_mem_nil, or_false] at h
  rcases h with ⟨rfl, rfl⟩ | ⟨rfl, rfl⟩ | ⟨rfl, rfl⟩ | ⟨rfl, rfl⟩
  · exact serIp4Bytes_arpSpa r
  · exact serIp4Bytes_arpTpa r
  · exact serIp4Bytes_ipSrc r
  · exact serIp4Bytes_ipDst r

/-- An append that fits, with what it changes (R36). -/
theorem exec_appended {i : Instr} {s : State} {bs : List Byte} (hi : i.appends = true) (hs : Ready s)
    (hb : headerBytes i s.regs = .ok bs) (hfit : s.flen.toNat + bs.length ≤ s.fbSize.val) :
    ∃ t, exec i s = .next t ∧ Appended s t bs :=
  ⟨s.appendBytes bs, exec_append_fits hi hs hb hfit, appended_appendBytes hfit⟩

/-- An appending command that serializes one register: `UNSET_FIELD`, then `FRAME_OVERFLOW`, else the register's
octets are appended (R85, R86). -/
theorem exec_serializes {i : Instr} {s : State} {w : Nat} {reg : Option (BitVec w)} {octets : BitVec w → List Byte}
    (hi : i.appends = true) (hs : Ready s)
    (hb : headerBytes i s.regs = (need reg >>= fun v => .ok (octets v))) :
    (reg = none → exec i s = .next (s.takeFault .unsetField))
    ∧ ∀ v, reg = some v →
      (s.fbSize.val < s.flen.toNat + (octets v).length → exec i s = .next (s.takeFault .frameOverflow))
      ∧ (s.flen.toNat + (octets v).length ≤ s.fbSize.val →
        ∃ t, exec i s = .next t ∧ Appended s t (octets v)) := by
  constructor
  · rintro rfl
    exact exec_append_raises hi hs hb
  · rintro v rfl
    exact ⟨exec_append_overflows hi hs hb, exec_appended hi hs hb⟩

/-- Settles O15: an id outside the table names no register of kind MAC; inside it, the register's octets are
appended. -/
theorem serMacAppendsOctets : Obligations.SerMacAppendsOctets :=
  ⟨fun _ => rfl, fun s fid hs =>
    ⟨fun h => exec_append_raises (i := .serMac fid) rfl hs (serMacBytes_badField h s.regs),
      fun _ hreg => exec_serializes rfl hs (headerBytes_serMac hreg)⟩⟩

/-- Settles O16: an id outside the table names no register of kind IP4; inside it, the register's octets are
appended. -/
theorem serIp4AppendsOctets : Obligations.SerIp4AppendsOctets :=
  ⟨fun _ => rfl, fun s fid hs =>
    ⟨fun h => exec_append_raises (i := .serIp4 fid) rfl hs (serIp4Bytes_badField h s.regs),
      fun _ hreg => exec_serializes rfl hs (headerBytes_serIp4 hreg)⟩⟩

end Sys2Proof.Machine

/-! PROOFS. The link and address-resolution packers (rules R90 to R101), and the packers' reading of a defaulted register
that is UNSET (R90(b), log 9). -/

namespace Sys2Proof.Machine

/-! ### When a chain of `Need` raises `UNSET_FIELD` (rules R8, R90(b)) -/

section Need

variable {α β : Type} {x : Option α}

/-- The last `Need` of a chain. -/
theorem need_bind_ok_eq_unsetField {g : α → β} :
    (need x >>= fun v => .ok (g v)) = .error (.raise .unsetField) ↔ x = none := by
  cases x with
  | none => exact iff_of_true rfl rfl
  | some v => exact iff_of_false nofun nofun

/-- A `Need` before a computation adds its own register to those that must be set. -/
theorem need_bind_eq_unsetField {f : α → Except Abandon β} {unset : Prop}
    (h : ∀ v, f v = .error (.raise .unsetField) ↔ unset) :
    (need x >>= f) = .error (.raise .unsetField) ↔ x = none ∨ unset := by
  cases x with
  | none => exact iff_of_true rfl (.inl rfl)
  | some v => exact (h v).trans (or_iff_right nofun).symm

end Need

/-! ### The bytes of the headers -/

section Headers

variable {r : FieldRegs}

theorem ethHeader_eq_unsetField :
    ethHeader r = .error (.raise .unsetField) ↔ r.ethDst = none ∨ r.ethSrc = none ∨ r.ethType = none :=
  need_bind_eq_unsetField fun _ => need_bind_eq_unsetField fun _ => need_bind_ok_eq_unsetField

theorem arphHeader_eq_unsetField :
    arphHeader r = .error (.raise .unsetField) ↔ r.arpHtype = none ∨ r.arpPtype = none ∨ r.arpOper = none :=
  need_bind_eq_unsetField fun _ => need_bind_eq_unsetField fun _ => need_bind_ok_eq_unsetField

theorem arppPayload_eq_unsetField :
    arppPayload r = .error (.raise .unsetField) ↔
      r.arpSha = none ∨ r.arpSpa = none ∨ r.arpTha = none ∨ r.arpTpa = none :=
  need_bind_eq_unsetField fun _ => need_bind_eq_unsetField fun _ => need_bind_eq_unsetField fun _ =>
    need_bind_ok_eq_unsetField

/-- The three required registers stand first (R107), then the eight defaulted ones. -/
theorem ip4Header_eq_unsetField :
    ip4Header r = .error (.raise .unsetField) ↔
      r.ipProto = none ∨ r.ipSrc = none ∨ r.ipDst = none
        ∨ r.ipDscp = none ∨ r.ipEcn = none ∨ r.ipTotlen = none ∨ r.ipId = none ∨ r.ipFlags = none
        ∨ r.ipFrag = none ∨ r.ipTtl = none ∨ r.ipCsum = none :=
  need_bind_eq_unsetField fun _ => need_bind_eq_unsetField fun _ => need_bind_eq_unsetField fun _ =>
    need_bind_eq_unsetField fun _ => need_bind_eq_unsetField fun _ => need_bind_eq_unsetField fun _ =>
    need_bind_eq_unsetField fun _ => need_bind_eq_unsetField fun _ => need_bind_eq_unsetField fun _ =>
    need_bind_eq_unsetField fun _ => need_bind_ok_eq_unsetField

/-- The two required registers stand first (R113), then the two defaulted ones. -/
theorem udpHeader_eq_unsetField :
    udpHeader r = .error (.raise .unsetField) ↔
      r.udpSport = none ∨ r.udpDport = none ∨ r.udpLen = none ∨ r.udpCsum = none :=
  need_bind_eq_unsetField fun _ => need_bind_eq_unsetField fun _ => need_bind_eq_unsetField fun _ =>
    need_bind_ok_eq_unsetField

theorem ethHeader_of_set {dst src : BitVec 48} {type : BitVec 16} (hdst : r.ethDst = some dst)
    (hsrc : r.ethSrc = some src) (htype : r.ethType = some type) : ethHeader r = .ok (ethBytes dst src type) := by
  rw [ethHeader, hdst, hsrc, htype]
  rfl

theorem arphHeader_of_set {htype ptype oper : BitVec 16} (hh : r.arpHtype = some htype) (hp : r.arpPtype = some ptype)
    (ho : r.arpOper = some oper) : arphHeader r = .ok (arphBytes htype ptype oper) := by
  rw [arphHeader, hh, hp, ho]
  rfl

theorem arppPayload_of_set {sha tha : BitVec 48} {spa tpa : BitVec 32} (hsha : r.arpSha = some sha)
    (hspa : r.arpSpa = some spa) (htha : r.arpTha = some tha) (htpa : r.arpTpa = some tpa) :
    arppPayload r = .ok (arppBytes sha spa tha tpa) := by
  rw [arppPayload, hsha, hspa, htha, htpa]
  rfl

end Headers

/-- The hardware-address length of Ethernet (R96). -/
@[simp] theorem hlen_ethernet : hlen 0x0001#16 = 6#8 := if_pos rfl

/-- The protocol-address length of the internet protocol (R96). -/
@[simp] theorem plen_ip4 : plen 0x0800#16 = 4#8 := if_pos rfl

/-! ### The packers -/

/-- An appending command whose bytes are known: `FRAME_OVERFLOW`, or the bytes are appended (R36, R90). -/
theorem exec_append_known {i : Instr} {s : State} {bs : List Byte} (hi : i.appends = true) (hs : Ready s)
    (hb : headerBytes i s.regs = .ok bs) :
    (s.fbSize.val < s.flen.toNat + bs.length → exec i s = .next (s.takeFault .frameOverflow))
    ∧ (s.flen.toNat + bs.length ≤ s.fbSize.val → ∃ t, exec i s = .next t ∧ Appended s t bs) :=
  ⟨exec_append_overflows hi hs hb, exec_appended hi hs hb⟩

/-- Settles O17: the header raises `UNSET_FIELD` exactly when a link register is UNSET, else it is `eth_bytes`. -/
theorem packEthAppendsLinkHeader : Obligations.PackEthAppendsLinkHeader :=
  ⟨rfl, fun _ hs =>
    ⟨fun hunset => exec_append_raises (i := .packEth) rfl hs (ethHeader_eq_unsetField.mpr hunset),
      fun _ _ _ hdst hsrc htype => exec_append_known (i := .packEth) rfl hs (ethHeader_of_set hdst hsrc htype)⟩⟩

/-- Settles O18: the length bytes are `hlen` and `plen` of the type codes, which are 6 and 4 on the listed ones. -/
theorem packArphAppendsResolutionHeader : Obligations.PackArphAppendsResolutionHeader := by
  refine ⟨rfl, fun s hs => ⟨fun hunset =>
    exec_append_raises (i := .packArph) rfl hs (arphHeader_eq_unsetField.mpr hunset), fun h p o hh hp ho => ?_⟩⟩
  obtain ⟨hbig, hfits⟩ := exec_append_known (i := .packArph) rfl hs (arphHeader_of_set hh hp ho)
  refine ⟨hbig, fun hfit => ?_⟩
  obtain ⟨u, hexec, happended⟩ := hfits hfit
  exact ⟨u, hlen h, plen p, hexec, fun heth => heth ▸ hlen_ethernet, fun hip => hip ▸ plen_ip4, happended⟩

/-- Settles O19: the payload raises `UNSET_FIELD` exactly when one of its registers is UNSET, else it is
`arpp_bytes`. -/
theorem packArppAppendsResolutionPayload : Obligations.PackArppAppendsResolutionPayload :=
  ⟨rfl, fun _ hs =>
    ⟨fun hunset => exec_append_raises (i := .packArpp) rfl hs (arppPayload_eq_unsetField.mpr hunset),
      fun _ _ _ _ hsha hspa htha htpa =>
        exec_append_known (i := .packArpp) rfl hs (arppPayload_of_set hsha hspa htha htpa)⟩⟩

/-- Settles O26: the defaulted registers are among those whose `Need` raises `UNSET_FIELD`. -/
theorem unsetDefaultedRegisterFaults : Obligations.UnsetDefaultedRegisterFaults := fun _ hs =>
  ⟨fun hunset =>
      exec_append_raises (i := .packIp4) rfl hs (ip4Header_eq_unsetField.mpr (.inr (.inr (.inr hunset)))),
    fun hunset => exec_append_raises (i := .packUdp) rfl hs (udpHeader_eq_unsetField.mpr (.inr (.inr hunset)))⟩

end Sys2Proof.Machine

/-! PROOFS. The internet and transport packers (rules R106 to R110, R112, R113). -/

namespace Sys2Proof.Machine

/-! ### Fields that share a byte (rules R7, R108) -/

/-- A 16-bit value as its two octets, by quotient and remainder. -/
theorem be16_eq_ofNat (v : BitVec 16) : be16 v = [BitVec.ofNat 8 (v.toNat / 256), BitVec.ofNat 8 (v.toNat % 256)] := by
  have hhigh : byteAt v 1 = BitVec.ofNat 8 (v.toNat / 256) :=
    congrArg (BitVec.ofNat 8) (Nat.shiftRight_eq_div_pow v.toNat 8)
  have hlow : byteAt v 0 = BitVec.ofNat 8 (v.toNat % 256) :=
    BitVec.eq_of_toNat_eq (Nat.mod_mod v.toNat 256).symm
  rw [be16, hhigh, hlow]

/-- DSCP stands in the upper six bits of its byte, ECN in the lower two (R108, log 11). -/
theorem dscp_append_ecn (dscp : BitVec 6) (ecn : BitVec 2) :
    dscp ++ ecn = BitVec.ofNat 8 (4 * dscp.toNat + ecn.toNat) := by
  apply BitVec.eq_of_toNat_eq
  rw [toNat_concat, BitVec.toNat_ofNat]
  omega

/-- The flags stand in the upper three bits of their 16, the fragment offset in the lower thirteen (R108, log 11). -/
theorem be16_flags_append_frag (flags : BitVec 3) (frag : BitVec 13) :
    be16 (flags ++ frag)
      = [BitVec.ofNat 8 (32 * flags.toNat + frag.toNat / 256), BitVec.ofNat 8 (frag.toNat % 256)] := by
  have hhigh : (flags.toNat * 2 ^ 13 + frag.toNat) / 256 = 32 * flags.toNat + frag.toNat / 256 := by omega
  have hlow : (flags.toNat * 2 ^ 13 + frag.toNat) % 256 = frag.toNat % 256 := by omega
  rw [be16_eq_ofNat, toNat_concat, hhigh, hlow]

/-! ### The bytes of the headers -/

/-- `ip4h_bytes` byte by byte, the shared bytes by their numbers (R106). -/
theorem ip4hBytes_eq (dscp : BitVec 6) (ecn : BitVec 2) (totlen id : BitVec 16) (flags : BitVec 3) (frag : BitVec 13)
    (ttl proto : BitVec 8) (csum : BitVec 16) (src dst : BitVec 32) :
    ip4hBytes dscp ecn totlen id flags frag ttl proto csum src dst =
      [0x45, BitVec.ofNat 8 (4 * dscp.toNat + ecn.toNat), byteAt totlen 1, byteAt totlen 0, byteAt id 1, byteAt id 0,
        BitVec.ofNat 8 (32 * flags.toNat + frag.toNat / 256), BitVec.ofNat 8 (frag.toNat % 256), ttl, proto,
        byteAt csum 1, byteAt csum 0, byteAt src 3, byteAt src 2, byteAt src 1, byteAt src 0,
        byteAt dst 3, byteAt dst 2, byteAt dst 1, byteAt dst 0] := by
  rw [ip4hBytes, dscp_append_ecn, be16_flags_append_frag]
  rfl

section Headers

variable {r : FieldRegs}

theorem ip4Header_of_set {dscp : BitVec 6} {ecn : BitVec 2} {totlen id : BitVec 16} {flags : BitVec 3}
    {frag : BitVec 13} {ttl proto : BitVec 8} {csum : BitVec 16} {src dst : BitVec 32} (hdscp : r.ipDscp = some dscp)
    (hecn : r.ipEcn = some ecn) (htotlen : r.ipTotlen = some totlen) (hid : r.ipId = some id)
    (hflags : r.ipFlags = some flags) (hfrag : r.ipFrag = some frag) (httl : r.ipTtl = some ttl)
    (hproto : r.ipProto = some proto) (hcsum : r.ipCsum = some csum) (hsrc : r.ipSrc = some src)
    (hdst : r.ipDst = some dst) :
    ip4Header r = .ok (ip4hBytes dscp ecn totlen id flags frag ttl proto csum src dst) := by
  rw [ip4Header, hproto, hsrc, hdst, hdscp, hecn, htotlen, hid, hflags, hfrag, httl, hcsum]
  rfl

theorem udpHeader_of_set {sport dport length csum : BitVec 16} (hsport : r.udpSport = some sport)
    (hdport : r.udpDport = some dport) (hlength : r.udpLen = some length) (hcsum : r.udpCsum = some csum) :
    udpHeader r = .ok (udpBytes sport dport length csum) := by
  rw [udpHeader, hsport, hdport, hlength, hcsum]
  rfl

end Headers

/-! ### The packers -/

/-- Settles O20: the required registers are among those whose `Need` raises `UNSET_FIELD`; when all are set, the header
is `ip4h_bytes`, whose shared bytes are the numbers that the statement names. -/
theorem packIp4AppendsInternetHeader : Obligations.PackIp4AppendsInternetHeader := by
  refine ⟨rfl, fun s hs => ⟨fun hunset => exec_append_raises (i := .packIp4) rfl hs
    (ip4Header_eq_unsetField.mpr (hunset.imp_right (.imp_right .inl))), ?_⟩⟩
  intro dscp ecn totlen id flags frag ttl proto csum src dst hdscp hecn htotlen hid hflags hfrag httl hproto hcsum
    hsrc hdst
  have hheader := ip4Header_of_set hdscp hecn htotlen hid hflags hfrag httl hproto hcsum hsrc hdst
  rw [ip4hBytes_eq] at hheader
  exact exec_append_known (i := .packIp4) rfl hs hheader

/-- Settles O21: the required registers are among those whose `Need` raises `UNSET_FIELD`; when all are set, the header
is `udp_bytes`. -/
theorem packUdpAppendsUdpHeader : Obligations.PackUdpAppendsUdpHeader :=
  ⟨rfl, fun _ hs =>
    ⟨fun hunset =>
        exec_append_raises (i := .packUdp) rfl hs (udpHeader_eq_unsetField.mpr (hunset.imp_right .inl)),
      fun _ _ _ _ hsport hdport hlength hcsum =>
        exec_append_known (i := .packUdp) rfl hs (udpHeader_of_set hsport hdport hlength hcsum)⟩⟩

end Sys2Proof.Machine

/-! PROOFS. Frame composition: `FRAME.CLEAR`, `FRAME.PUTB` (rules R121, R122), the list of commands that composes a
frame (R123), and the control flow from the headers' texts to the raw channel (R125, R141, R147). -/

namespace Sys2Proof.Machine

/-! ### The two commands (rules R121, R122) -/

theorem exec_frameClear {s : State} (hs : Ready s) : exec .frameClear s = .next s.clearFrame :=
  (exec_eq_runCommand ..).trans (runCommand_ok hs rfl)

/-- Settles O24: with `FLEN` 0 every offset is at or above it. -/
theorem frameClearEmptiesTheFrame : Obligations.FrameClearEmptiesTheFrame :=
  ⟨rfl, fun _ hs => ⟨exec_frameClear hs, fun _ => specifiedByte_outside (Nat.zero_le _)⟩,
    fun _ hreset hfault => (exec_eq_runCommand ..).trans (runCommand_discards hreset hfault)⟩

theorem wordOf_byte (op : BitVec 8) (byte : Byte) : wordOf op 0#8 (0#40 ++ byte) = op ++ 0#48 ++ byte := by
  have h : (op ++ 0#48 ++ byte : Word).toNat = (op ++ 0#48 ++ byte : BitVec (8 + 48 + 8)).toNat := rfl
  rw [← BitVec.toNat_inj, wordOf_toNat, byteImm_toNat, h, toNat_concat, toNat_concat, BitVec.toNat_zero,
    BitVec.toNat_zero]
  omega

/-- Settles O25: an appending command whose one byte is always known. -/
theorem framePutbAppendsOneByte : Obligations.FramePutbAppendsOneByte := by
  refine ⟨wordOf_byte _, fun s byte hs => ?_⟩
  obtain ⟨hbig, hfits⟩ := exec_append_known (i := .framePutb byte) rfl hs rfl
  exact ⟨hfits, hbig⟩

/-! ### The composition (rule R123) -/

/-- One `FRAME.PUTB` per byte of a payload appends that byte, whatever the registers hold. -/
theorem forall₂_framePutb (payload : List Byte) (r : FieldRegs) :
    List.Forall₂ (fun i bs => i.appends = true ∧ headerBytes i r = .ok bs)
      (payload.map .framePutb) (payload.map ([·])) := by
  rw [List.forall₂_map_left_iff, List.forall₂_map_right_iff, List.forall₂_same]
  exact fun _ _ => ⟨rfl, rfl⟩

/-- A composition whose segments are known and fit is, after the clear, one append of the segments and the payload. -/
theorem execAll_composeCommands {segments : List Instr} {segs : List (List Byte)} {payload : List Byte} {u : State}
    (hu : Ready u)
    (hsegs : List.Forall₂ (fun i bs => i.appends = true ∧ headerBytes i u.regs = .ok bs) segments segs)
    (hfit : (segs.flatten ++ payload).length ≤ u.fbSize.val) :
    execAll (composeCommands segments payload) u = .next (u.clearFrame.appendBytes (segs.flatten ++ payload)) := by
  have hbytes : (segs ++ payload.map ([·])).flatten = segs.flatten ++ payload := by
    rw [List.flatten_append, ← List.flatMap_def, List.flatMap_singleton']
  have hall := List.rel_append hsegs (forall₂_framePutb payload u.regs)
  have happends := execAll_appends_fit (s := u.clearFrame) hu hall (by simpa [hbytes] using hfit)
  rw [hbytes] at happends
  simpa only [composeCommands, execAll, exec_frameClear hu] using happends

/-- The frame of a composition is what was appended after the clear. -/
theorem frame_appendBytes_clearFrame {u : State} {bs : List Byte} (hfit : bs.length ≤ u.fbSize.val) :
    frame (u.clearFrame.appendBytes bs) = some bs :=
  frame_of_appended (appended_appendBytes (s := u.clearFrame) (by simpa using hfit)) rfl

/-! ### The control flow (rules R125, R141, R147) -/

section Flow

variable {headers : List Pseudo} {segments : List Instr} {payload : List Byte} {name : Nat} {s t : State}
  {w : ChannelWorld}

/-- A send that the kernel takes whole. -/
theorem sendFrame_whole {h : Nat} (hopen : w.handleOf name = some h) (bytes : List Byte) :
    sendFrame name bytes (.wrote bytes.length) w = (.ok bytes.length, w.transmit ⟨h, bytes.take 6, bytes⟩) := by
  simp [sendFrame, hopen, frameDestination]

/-- After a fault there is no frame, and nothing is sent. -/
theorem sendComposed_of_fault (answer : SendAnswer) (hfault : t.fault = true) :
    sendComposed t name answer w = (.error .noFrame, w) := by
  simp [sendComposed, takeFrame, hfault]

/-- A frame that the kernel takes whole. -/
theorem sendComposed_whole {h : Nat} {bytes : List Byte} (hfault : t.fault = false) (hframe : frame t = some bytes)
    (hopen : w.handleOf name = some h) :
    sendComposed t name (.wrote bytes.length) w = (.ok bytes.length, w.transmit ⟨h, bytes.take 6, bytes⟩) := by
  simp [sendComposed, takeFrame, hfault, hframe, sendFrame_whole hopen]

/-- A malformed text ends the flow before its first command (log 21). -/
theorem composeAndSend_malformed (answer : SendAnswer) (hheaders : expandAll headers = none) :
    composeAndSend headers segments payload name answer s w = (.error .addressFormat, s, w) := by
  rw [composeAndSend, hheaders]

/-- A flow whose commands all have a step sends what they leave. -/
theorem composeAndSend_of_execAll {sets : List Instr} (answer : SendAnswer) (hheaders : expandAll headers = some sets)
    (hrun : execAll (sets ++ composeCommands segments payload) s = .next t) :
    composeAndSend headers segments payload name answer s w
      = ((sendComposed t name answer w).1, t, (sendComposed t name answer w).2) := by
  simp only [composeAndSend, hheaders, hrun]

end Flow

/-- Settles O57: the composition is a clear and one append, so that the frame the host takes is the appended bytes. -/
theorem composedFrameReachesTheChannel : Obligations.ComposedFrameReachesTheChannel := by
  intro headers segments payload name answer s w
  refine ⟨composeAndSend_malformed answer, fun sets hheaders => ⟨fun t hrun hfault => ?_, ?_⟩⟩
  · rw [composeAndSend_of_execAll answer hheaders hrun, sendComposed_of_fault answer hfault]
  · intro u segs h hsets hu hopen hsegs hfit
    rw [← List.length_append] at hfit ⊢
    have hrun := (execAll_append _ hsets).trans (execAll_composeCommands hu hsegs hfit)
    have hframe := frame_appendBytes_clearFrame hfit
    have hfault : (u.clearFrame.appendBytes (segs.flatten ++ payload)).fault = false := hu.2
    refine ⟨_, ?_, hfault, hframe⟩
    rw [composeAndSend_of_execAll _ hheaders hrun, sendComposed_whole hfault hframe hopen]
    rfl

end Sys2Proof.Machine

/-! PROOFS. The text forms of addresses (rules R131, R132, R133, R137): what is written is read back. -/

namespace Sys2Proof.Machine

/-! ### Hardware addresses (rules R131, R132, R137) -/

theorem hexDigit_hexChar (upper : Bool) : ∀ n < 16, hexDigit (hexChar upper n) = some n := by
  cases upper <;> decide

theorem hexOctet_hexChar (upper : Bool) (o : Byte) :
    hexOctet (hexChar upper (o.toNat / 16)) (hexChar upper (o.toNat % 16)) = some o := by
  have hhi := hexDigit_hexChar upper (o.toNat / 16) (by omega)
  have hlo := hexDigit_hexChar upper (o.toNat % 16) (by omega)
  simp only [hexOctet, hhi, hlo, Nat.div_add_mod, BitVec.ofNat_toNat, BitVec.setWidth_eq]

theorem parseMac_formatMac (upper : Bool) (o : Vector Byte 6) : parseMac (formatMac upper o) = some o :=
  match o with
  | ⟨⟨[o0, o1, o2, o3, o4, o5]⟩, _⟩ => by simp [formatMac, hexPair, parseMac, hexOctet_hexChar]

theorem parseMac_of_length_ne {t : Text} (h : t.length ≠ 17) : parseMac t = none := by
  unfold parseMac
  split
  · exact absurd rfl h
  · rfl

/-! ### Protocol addresses (rules R133, R137) -/

/-- The decimal digit that `decText` writes for a number less than 10. -/
def decChar (k : Nat) : Char := Char.ofNat ('0'.toNat + k)

/-- The digits that `decText` writes, as numbers. -/
def decDigits (n : Nat) : List Nat :=
  if n < 10 then [n] else if n < 100 then [n / 10, n % 10] else [n / 100, n / 10 % 10, n % 10]

theorem decText_eq_map_decChar (o : Byte) : decText o = (decDigits o.toNat).map decChar := by
  simp only [decText, decDigits, apply_ite (List.map decChar)]
  rfl

theorem decDigits_lt {n : Nat} (hn : n < 1000) : ∀ d ∈ decDigits n, d < 10 := by
  unfold decDigits
  split_ifs <;> simp <;> omega

theorem length_decDigits (n : Nat) : 1 ≤ (decDigits n).length ∧ (decDigits n).length ≤ 3 := by
  unfold decDigits
  split_ifs <;> simp

theorem foldl_decDigits (n : Nat) : (decDigits n).foldl (fun acc d => 10 * acc + d) 0 = n := by
  unfold decDigits
  split_ifs <;> simp <;> omega

theorem decDigit_decChar : ∀ d < 10, decDigit (decChar d) = some d := by decide

theorem decChar_ne_dot : ∀ d < 10, decChar d ≠ '.' := by decide

theorem decNumber_map_decChar {ds : List Nat} (hds : ∀ d ∈ ds, d < 10) (acc : Nat) :
    decNumber acc (ds.map decChar) = some (ds.foldl (fun acc d => 10 * acc + d) acc) := by
  induction ds generalizing acc with
  | nil => rfl
  | cons d ds ih =>
    obtain ⟨hd, hds⟩ := List.forall_mem_cons.mp hds
    simp only [List.map_cons, decNumber, decDigit_decChar d hd, ih hds, List.foldl_cons]

/-- R133: an octet that is written in decimal is read back. -/
theorem decOctet_decText (o : Byte) : decOctet (decText o) = some o := by
  have hnumber := decNumber_map_decChar (decDigits_lt (n := o.toNat) (by omega)) 0
  rw [foldl_decDigits] at hnumber
  have hle : o.toNat ≤ 255 := by omega
  simp only [decOctet, decText_eq_map_decChar, List.length_map, length_decDigits, and_self, hnumber, hle, if_true,
    BitVec.ofNat_toNat, BitVec.setWidth_eq]

theorem dot_notMem_decText (o : Byte) : '.' ∉ decText o := by
  rw [decText_eq_map_decChar, List.mem_map]
  rintro ⟨d, hd, hdot⟩
  exact decChar_ne_dot d (decDigits_lt (by omega) d hd) hdot

/-- A text without a dot is one piece. -/
theorem splitDots_of_notMem {t : Text} (h : '.' ∉ t) : splitDots t = [t] := by
  induction t with
  | nil => rfl
  | cons c t ih =>
    obtain ⟨hc, ht⟩ := not_or.mp (mt List.mem_cons.mpr h)
    simp only [splitDots, if_neg (Ne.symm hc), ih ht]

/-- A text is cut at its first dot. -/
theorem splitDots_append_dot {t : Text} (h : '.' ∉ t) (rest : Text) :
    splitDots (t ++ '.' :: rest) = t :: splitDots rest := by
  induction t with
  | nil => simp [splitDots]
  | cons c t ih =>
    obtain ⟨hc, ht⟩ := not_or.mp (mt List.mem_cons.mpr h)
    simp only [List.cons_append, splitDots, if_neg (Ne.symm hc), ih ht]

theorem splitDots_formatIp4 (o : Vector Byte 4) :
    splitDots (formatIp4 o) = [decText o[0], decText o[1], decText o[2], decText o[3]] := by
  simp only [formatIp4, List.append_assoc, List.cons_append, splitDots_append_dot (dot_notMem_decText _),
    splitDots_of_notMem (dot_notMem_decText _)]

theorem parseIp4_formatIp4 (o : Vector Byte 4) : parseIp4 (formatIp4 o) = some o :=
  match o with
  | ⟨⟨[o0, o1, o2, o3]⟩, _⟩ => by simp [parseIp4, splitDots_formatIp4, decOctet_decText]

/-- Settles O49: each digit that is written is read back as its number, and the dots cut a protocol address where its
octets were joined. -/
theorem addressTextRoundTrip : Obligations.AddressTextRoundTrip :=
  ⟨parseMac_formatMac, parseIp4_formatIp4, fun _ => parseMac_of_length_ne⟩

end Sys2Proof.Machine

/-! PROOFS. The raw transmission channel of the host (rules R138 to R145): what an open asks the kernel for, who owns a
handle and when it is given back, what a send passes to the kernel. -/

namespace Sys2Proof.Machine

/-! ### What an open asks for (rule R139) -/

theorem getElem_networkBytes {n : Nat} (v : Nat) {k : Nat} (hk : k < (networkBytes n v).length) :
    (networkBytes n v)[k].toNat = v / 256 ^ (n - 1 - k) % 256 := by
  induction n generalizing k with
  | zero => cases hk
  | succ n ih =>
    cases k with
    | zero => rfl
    | succ k =>
      have hexp : n + 1 - 1 - (k + 1) = n - 1 - k := by omega
      rw [hexp]
      exact ih _

section Open

variable (d : ChannelDomain) (y : ChannelType) (p : ChannelProtocol) (w : ChannelWorld)

/-- Whatever the kernel answers, it has been asked once. -/
theorem openChannel_requests (answer : OpenAnswer) :
    (openChannel d y p answer w).2.requests = openRequest d y p :: w.requests := by
  cases answer <;> rfl

theorem openChannel_abandoned_live (code : Nat) : (openChannel d y p (.abandoned code) w).2.live = w.live :=
  List.erase_cons_head ..

end Open

/-- Settles O55: an open that fails after the grant gives back the handle at the head of the live ones. -/
theorem openAsksInNetworkByteOrder : Obligations.OpenAsksInNetworkByteOrder := fun d y p w =>
  ⟨fun answer => ⟨openRequest d y p, openChannel_requests d y p w answer, rfl, rfl, length_networkBytes _ _,
      fun _ => getElem_networkBytes _⟩,
    fun code => ⟨rfl, rfl, rfl, rfl, rfl, rfl, openChannel_abandoned_live d y p w code, rfl⟩⟩

/-! ### Sends (rules R141, R142, R144) -/

section Send

variable {w : ChannelWorld} {name h : Nat}

theorem sendFrame_closed (hclosed : w.handleOf name = none) (bytes : List Byte) (answer : SendAnswer) :
    sendFrame name bytes answer w = (.error .closed, w) := by
  rw [sendFrame, hclosed]

theorem sendFrame_failed (hopen : w.handleOf name = some h) (bytes : List Byte) (code : Nat) :
    sendFrame name bytes (.failed code) w = (.error (.sendFailed code), w) := by
  rw [sendFrame, hopen]

theorem sendFrame_partial (hopen : w.handleOf name = some h) {bytes : List Byte} {n : Nat} (hn : n ≠ bytes.length) :
    sendFrame name bytes (.wrote n) w
      = (.error (.partialWrite n), w.transmit ⟨h, bytes.take 6, bytes.take n⟩) := by
  simp [sendFrame, hopen, hn, frameDestination]

end Send

/-- Settles O56, a lemma for each answer of the operating system. -/
theorem sendPassesTheFrameToTheKernel : Obligations.SendPassesTheFrameToTheKernel := fun _ _ bytes =>
  ⟨fun _ hopen => ⟨sendFrame_whole hopen bytes, fun _ => sendFrame_partial hopen, sendFrame_failed hopen bytes⟩,
    fun hclosed => sendFrame_closed hclosed bytes⟩

/-! ### Close and destruction (rules R138, R142) -/

section Close

variable {w : ChannelWorld} {name h : Nat}

theorem closeChannel_of_closed (hclosed : w.handleOf name = none) : closeChannel name w = w := by
  rw [closeChannel, hclosed]

theorem closeChannel_of_open (hopen : w.handleOf name = some h) :
    closeChannel name w = (w.disown name).giveBack h := by
  rw [closeChannel, hopen]

/-- R142: after a close the channel owns no handle. -/
@[simp] theorem handleOf_closeChannel (name : Nat) (w : ChannelWorld) :
    (closeChannel name w).handleOf name = none := by
  rcases closeChannel_cases name w with ⟨hclosed, heq⟩ | ⟨h, -, heq⟩ <;> rw [heq]
  · exact hclosed
  · simp

theorem dropChannel_of_open (hopen : w.handleOf name = some h) :
    dropChannel name w = ((w.disown name).giveBack h).forget name := by
  rw [dropChannel, closeChannel_of_open hopen]

theorem dropChannel_of_closed (hclosed : w.handleOf name = none) : dropChannel name w = w.forget name := by
  rw [dropChannel, closeChannel_of_closed hclosed]

/-- The destruction of a channel does not touch what the kernel has received. -/
theorem dropChannel_written (name : Nat) (w : ChannelWorld) (received : List Transmission) :
    dropChannel name { w with written := received } = { dropChannel name w with written := received } := by
  have hsame : ChannelWorld.handleOf { w with written := received } name = w.handleOf name := rfl
  cases hopen : w.handleOf name with
  | none => rw [dropChannel_of_closed hopen, dropChannel_of_closed (hsame.trans hopen)]; rfl
  | some h => rw [dropChannel_of_open hopen, dropChannel_of_open (hsame.trans hopen)]; rfl

/-- A close leaves the other channels as they are. -/
theorem channel_closeChannel {n : Nat} (hn : n ≠ name) : (closeChannel name w).channel n = w.channel n := by
  rcases closeChannel_cases name w with ⟨-, heq⟩ | ⟨h, -, heq⟩ <;> rw [heq]
  exact channel_disown hn

theorem channel_dropChannel (name n : Nat) (w : ChannelWorld) :
    (dropChannel name w).channel n = if n = name then none else w.channel n := by
  rw [dropChannel, channel_forget]
  split
  · rfl
  · next hn => exact channel_closeChannel hn

end Close

/-! ### A channel that was just opened (rules R138, R142, R145) -/

section Opened

variable (d : ChannelDomain) (y : ChannelType) (p : ChannelProtocol) (w : ChannelWorld)

theorem handleOf_openChannel : (openChannel d y p .granted w).2.handleOf w.granted = some w.granted :=
  handleOf_construct ..

/-- The close of a new channel gives back the handle at the head of the live ones. -/
theorem closeChannel_openChannel :
    (closeChannel w.granted (openChannel d y p .granted w).2).live = w.live
    ∧ (closeChannel w.granted (openChannel d y p .granted w).2).released = w.granted :: w.released
    ∧ (closeChannel w.granted (openChannel d y p .granted w).2).granted = w.granted + 1 := by
  rw [closeChannel_of_open (handleOf_openChannel d y p w)]
  exact ⟨List.erase_cons_head .., rfl, rfl⟩

end Opened

/-- Settles O50: after the first close the channel owns no handle, which is all that a close, a destruction and a send
look at. -/
theorem channelReleasesItsHandleOnce : Obligations.ChannelReleasesItsHandleOnce := by
  intro d y p w opened closed
  obtain ⟨hlive, hreleased, -⟩ := closeChannel_openChannel d y p w
  have hclosed : closed.handleOf w.granted = none := handleOf_closeChannel ..
  rw [dropChannel_of_closed hclosed]
  exact ⟨rfl, rfl, hlive, hreleased, closeChannel_of_closed hclosed, hlive, hreleased, sendFrame_closed hclosed⟩

/-! ### The invariant of the channels (rules R138, R143) -/

section Invariant

variable {w : ChannelWorld} {name h : Nat}

theorem ChannelInv.empty : ChannelInv ChannelWorld.empty where
  names := .nil
  owned := nofun
  owner := nofun
  liveOnce := .nil
  releasedOnce := .nil
  notBoth := nofun
  granted := fun _ => by simp [ChannelWorld.empty]
  namesGranted := nofun

/-- The invariant speaks neither of what the kernel was asked for nor of what it received. -/
theorem ChannelInv.of_records (hw : ChannelInv w) (requests : List OpenRequest) (written : List Transmission) :
    ChannelInv { w with requests := requests, written := written } :=
  ⟨hw.names, hw.owned, hw.owner, hw.liveOnce, hw.releasedOnce, hw.notBoth, hw.granted, hw.namesGranted⟩

theorem ChannelInv.lt_granted_of_live (hw : ChannelInv w) (hlive : h ∈ w.live) : h < w.granted :=
  (hw.granted h).mpr (.inl hlive)

theorem ChannelInv.lt_granted_of_released (hw : ChannelInv w) (hreleased : h ∈ w.released) : h < w.granted :=
  (hw.granted h).mpr (.inr hreleased)

/-- An open channel owns the live handle of its own number. -/
theorem ChannelInv.live_of_handleOf (hw : ChannelInv w) (hopen : w.handleOf name = some h) :
    h = name ∧ h ∈ w.live := by
  obtain ⟨c, hc, hh⟩ := handleOf_eq_some.mp hopen
  exact hw.owned _ (mem_of_channel hc) h hh

theorem ChannelInv.notMem_released (hw : ChannelInv w) (hlive : h ∈ w.live) : h ∉ w.released :=
  fun hreleased => hw.notBoth h hreleased hlive

/-- R143: the ownership of a handle is exclusive. -/
theorem ChannelInv.owner_unique (hw : ChannelInv w) {e f : Nat × Channel} (he : e ∈ w.channels)
    (hf : f ∈ w.channels) (heh : e.2.handle = some h) (hfh : f.2.handle = some h) : e = f :=
  List.inj_on_of_nodup_map hw.names he hf ((hw.owned e he h heh).1.symm.trans (hw.owned f hf h hfh).1)

/-- A new channel owns the handle that was granted to it, which no other channel owns. -/
theorem ChannelInv.after_grant_construct (hw : ChannelInv w) (d : ChannelDomain) (y : ChannelType)
    (p : ChannelProtocol) : ChannelInv (w.grant.construct w.granted ⟨d, y, p, some w.granted⟩) where
  names := by
    refine List.nodup_cons.mpr ⟨fun hmem => ?_, hw.names⟩
    obtain ⟨e, he, hname⟩ := List.mem_map.mp hmem
    exact (hw.namesGranted e he).ne hname
  owned := by
    refine List.forall_mem_cons.mpr ⟨fun h hh => ?_, fun e he h hh => ?_⟩
    · cases hh
      exact ⟨rfl, .head _⟩
    · obtain ⟨hname, hlive⟩ := hw.owned e he h hh
      exact ⟨hname, .tail _ hlive⟩
  owner := by
    refine List.forall_mem_cons.mpr ⟨⟨_, .head _, rfl⟩, fun h hlive => ?_⟩
    obtain ⟨e, he, hh⟩ := hw.owner h hlive
    exact ⟨e, .tail _ he, hh⟩
  liveOnce := List.nodup_cons.mpr ⟨fun hlive => (hw.lt_granted_of_live hlive).ne rfl, hw.liveOnce⟩
  releasedOnce := hw.releasedOnce
  notBoth := fun h hreleased =>
    List.not_mem_cons_of_ne_of_not_mem (hw.lt_granted_of_released hreleased).ne (hw.notBoth h hreleased)
  granted := fun h => by
    have hold := hw.granted h
    simp only [ChannelWorld.construct_granted, ChannelWorld.grant_granted, ChannelWorld.construct_live,
      ChannelWorld.grant_live, ChannelWorld.construct_released, ChannelWorld.grant_released, List.mem_cons, or_assoc,
      ← hold]
    omega
  namesGranted := List.forall_mem_cons.mpr
    ⟨Nat.lt_succ_self _, fun e he => Nat.lt_succ_of_lt (hw.namesGranted e he)⟩

theorem map_fst_disown (name : Nat) (w : ChannelWorld) :
    (w.disown name).channels.map (·.1) = w.channels.map (·.1) := by
  rw [ChannelWorld.disown_channels, List.map_map]
  refine List.map_congr_left fun e _ => ?_
  rw [Function.comp_apply]
  split <;> rfl

/-- The channels that own a handle after one has been closed are the others that owned one before. -/
theorem mem_disown_of_handle {e : Nat × Channel} (hh : e.2.handle = some h) :
    e ∈ (w.disown name).channels ↔ e ∈ w.channels ∧ e.1 ≠ name := by
  rw [ChannelWorld.disown_channels, List.mem_map]
  constructor
  · rintro ⟨f, hf, rfl⟩
    split at hh
    · cases hh
    · next hne => rw [if_neg hne]; exact ⟨hf, hne⟩
  · rintro ⟨he, hne⟩
    exact ⟨e, he, if_neg hne⟩

/-- The handle of a channel that is closed goes from the live ones to those given back. -/
theorem ChannelInv.after_disown_giveBack (hw : ChannelInv w) (hopen : w.handleOf name = some h) :
    ChannelInv ((w.disown name).giveBack h) := by
  obtain ⟨rfl, hlive⟩ := hw.live_of_handleOf hopen
  have herase (k : Nat) : k ∈ w.live.erase h ↔ k ≠ h ∧ k ∈ w.live := hw.liveOnce.mem_erase_iff
  exact {
    names := (map_fst_disown h w).symm ▸ hw.names
    owned := fun e he k hk => by
      obtain ⟨he, hne⟩ := (mem_disown_of_handle hk).mp he
      obtain ⟨rfl, hklive⟩ := hw.owned e he k hk
      exact ⟨rfl, (herase _).mpr ⟨hne, hklive⟩⟩
    owner := fun k hk => by
      obtain ⟨hne, hklive⟩ := (herase k).mp hk
      obtain ⟨e, he, hhandle⟩ := hw.owner k hklive
      have hname := (hw.owned e he k hhandle).1
      exact ⟨e, (mem_disown_of_handle hhandle).mpr ⟨he, hname ▸ hne⟩, hhandle⟩
    liveOnce := hw.liveOnce.erase h
    releasedOnce := List.nodup_cons.mpr ⟨hw.notMem_released hlive, hw.releasedOnce⟩
    notBoth := List.forall_mem_cons.mpr
      ⟨fun hmem => ((herase h).mp hmem).1 rfl,
        fun k hreleased hmem => hw.notBoth k hreleased ((herase k).mp hmem).2⟩
    granted := fun k => by
      rw [ChannelWorld.giveBack_granted, ChannelWorld.disown_granted, hw.granted k, ChannelWorld.giveBack_live,
        ChannelWorld.disown_live, herase, ChannelWorld.giveBack_released, ChannelWorld.disown_released, List.mem_cons]
      by_cases hk : k = h
      · simp [hk, hlive]
      · simp [hk]
    namesGranted := fun e he => by
      have hname : e.1 ∈ (w.disown h).channels.map (·.1) := List.mem_map_of_mem he
      rw [map_fst_disown] at hname
      obtain ⟨f, hf, heq⟩ := List.mem_map.mp hname
      exact heq ▸ hw.namesGranted f hf }

/-- A channel that owns no handle can go. -/
theorem ChannelInv.after_forget (hw : ChannelInv w) (hclosed : w.handleOf name = none) :
    ChannelInv (w.forget name) where
  names := hw.names.sublist (List.filter_sublist.map _)
  owned := fun e he => hw.owned e (List.mem_of_mem_filter he)
  owner := fun h hlive => by
    obtain ⟨e, he, hh⟩ := hw.owner h hlive
    refine ⟨e, List.mem_filter.mpr ⟨he, bne_iff_ne.mpr ?_⟩, hh⟩
    rintro rfl
    have hopen := handleOf_eq_some.mpr ⟨_, channel_of_mem hw.names he, hh⟩
    rw [hclosed] at hopen
    cases hopen
  liveOnce := hw.liveOnce
  releasedOnce := hw.releasedOnce
  notBoth := hw.notBoth
  granted := hw.granted
  namesGranted := fun e he => hw.namesGranted e (List.mem_of_mem_filter he)

theorem ChannelInv.after_closeChannel (hw : ChannelInv w) (name : Nat) : ChannelInv (closeChannel name w) := by
  rcases closeChannel_cases name w with ⟨-, heq⟩ | ⟨h, hopen, heq⟩ <;> rw [heq]
  · exact hw
  · exact hw.after_disown_giveBack hopen

theorem ChannelInv.after_dropChannel (hw : ChannelInv w) (name : Nat) : ChannelInv (dropChannel name w) :=
  (hw.after_closeChannel name).after_forget (handleOf_closeChannel name w)

theorem ChannelInv.after_sendFrame (hw : ChannelInv w) (name : Nat) (bytes : List Byte) (answer : SendAnswer) :
    ChannelInv (sendFrame name bytes answer w).2 := by
  rcases sendFrame_cases name bytes answer w with heq | ⟨t, heq⟩ <;> rw [heq]
  · exact hw
  · exact hw.of_records w.requests (t :: w.written)

end Invariant

/-- Settles O52: the invariant says that an owned handle is live, and not given back yet. -/
theorem channelIsReleasedOnDestruction : Obligations.ChannelIsReleasedOnDestruction := by
  refine fun w name hw => ⟨?_, fun n hn => ?_, fun h hopen => ?_, fun hclosed => ?_⟩
  · rw [channel_dropChannel, if_pos rfl]
  · rw [channel_dropChannel, if_neg hn]
  · have hlive := (hw.live_of_handleOf hopen).2
    rw [dropChannel_of_open hopen]
    exact ⟨hlive, hw.notMem_released hlive, rfl, hw.liveOnce.not_mem_erase, rfl⟩
  · rw [dropChannel_of_closed hclosed]
    exact ⟨rfl, rfl⟩

/-! ### A construction that fails (rule R143) -/

section Construction

variable {w : ChannelWorld}

/-- To forget a channel it does not matter whether it was closed. -/
theorem forget_disown (name : Nat) (w : ChannelWorld) : (w.disown name).forget name = w.forget name := by
  have hchannels : ((w.disown name).forget name).channels = (w.forget name).channels := by
    simp only [ChannelWorld.forget_channels, ChannelWorld.disown_channels]
    induction w.channels with
    | nil => rfl
    | cons e es ih => by_cases hname : e.1 = name <;> simp [hname, ih]
  exact congrArg (fun es => { w with channels := es }) hchannels

/-- No channel has the next name. -/
theorem ChannelInv.forget_construct (hw : ChannelInv w) (c : Channel) :
    (w.construct w.granted c).forget w.granted = w := by
  have hold : w.channels.filter (fun e => e.1 != w.granted) = w.channels :=
    List.filter_eq_self.mpr fun e he => bne_iff_ne.mpr (hw.namesGranted e he).ne
  have hchannels : ((w.construct w.granted c).forget w.granted).channels = w.channels := by
    rw [ChannelWorld.forget_channels, ChannelWorld.construct_channels, List.filter_cons_of_neg (by simp), hold]
  exact congrArg (fun es => { w with channels := es }) hchannels

variable (d : ChannelDomain) (y : ChannelType) (p : ChannelProtocol)

/-- A construction that fails leaves what the destruction of the new channel would leave (R143). -/
theorem ChannelInv.dropChannel_openChannel (hw : ChannelInv w) (code : Nat) :
    dropChannel w.granted (openChannel d y p .granted w).2 = (openChannel d y p (.abandoned code) w).2 := by
  rw [dropChannel_of_open (handleOf_openChannel d y p w)]
  have hforget := hw.forget_construct ⟨d, y, p, some w.granted⟩
  rw [← forget_disown] at hforget
  exact congrArg (fun v : ChannelWorld =>
    { (openChannel d y p (.abandoned code) w).2 with channels := v.channels }) hforget

theorem ChannelInv.after_openChannel (hw : ChannelInv w) (answer : OpenAnswer) :
    ChannelInv (openChannel d y p answer w).2 := by
  have hasked := hw.of_records (openRequest d y p :: w.requests) w.written
  have hopened : ChannelInv (openChannel d y p .granted w).2 := hasked.after_grant_construct d y p
  cases answer with
  | granted => exact hopened
  | refused code => exact hasked
  | abandoned code =>
    rw [← hw.dropChannel_openChannel]
    exact hopened.after_dropChannel w.granted

theorem ChannelInv.after_channelMove (hw : ChannelInv w) (m : ChannelMove) : ChannelInv (channelMove m w) := by
  cases m with
  | openNew d y p answer => exact hw.after_openChannel d y p answer
  | send name bytes answer => exact hw.after_sendFrame name bytes answer
  | close name => exact hw.after_closeChannel name
  | drop name => exact hw.after_dropChannel name

end Construction

/-- Settles O51: the invariant makes the handle of an open channel its name, and names are not shared. -/
theorem channelMovesKeepOwnership : Obligations.ChannelMovesKeepOwnership :=
  ⟨.empty, fun m _ hw => ⟨hw.after_channelMove m, fun _ he _ hf _ => (hw.after_channelMove m).owner_unique he hf⟩⟩

/-! ### Scopes (rules R143, R144, R145) -/

section Scope

variable (d : ChannelDomain) (y : ChannelType) (p : ChannelProtocol) (sends : List (List Byte × SendAnswer))
  {w : ChannelWorld}

/-- A scope whose open is granted leaves what a failed construction leaves, but for what the kernel has received. -/
theorem ChannelInv.scopedChannel_granted (hw : ChannelInv w) (code : Nat) : ∃ received,
    (scopedChannel d y p .granted sends w).2
      = { (openChannel d y p (.abandoned code) w).2 with written := received } := by
  obtain ⟨received, hsent⟩ := sendEach_frame w.granted sends (openChannel d y p .granted w).2
  have hleft : (scopedChannel d y p .granted sends w).2 = dropChannel w.granted _ :=
    congrArg (dropChannel w.granted) hsent
  rw [dropChannel_written, hw.dropChannel_openChannel d y p code] at hleft
  exact ⟨_, hleft⟩

/-- R143: whatever the path out of a scope, it leaves the live handles and the channels as they were. -/
theorem ChannelInv.after_scopedChannel (hw : ChannelInv w) (answer : OpenAnswer) :
    (scopedChannel d y p answer sends w).2.live = w.live
    ∧ (scopedChannel d y p answer sends w).2.channels = w.channels
    ∧ ChannelInv (scopedChannel d y p answer sends w).2 := by
  have hlive := openChannel_abandoned_live d y p w
  cases answer with
  | refused code => exact ⟨rfl, rfl, hw.after_openChannel d y p (.refused code)⟩
  | abandoned code => exact ⟨hlive code, rfl, hw.after_openChannel d y p (.abandoned code)⟩
  | granted =>
    obtain ⟨received, hleft⟩ := hw.scopedChannel_granted d y p sends 0
    rw [hleft]
    exact ⟨hlive 0, rfl, (hw.after_openChannel d y p (.abandoned 0)).of_records _ received⟩

/-- A scope counts one handle granted. -/
theorem ChannelInv.scopedChannel_granted_count (hw : ChannelInv w) :
    (scopedChannel d y p .granted sends w).2.granted = w.granted + 1 := by
  obtain ⟨received, hleft⟩ := hw.scopedChannel_granted d y p sends 0
  rw [hleft]
  rfl

end Scope

/-- Settles O53: a scope leaves no more than a failed construction does. -/
theorem scopeReleasesOnEveryPath : Obligations.ScopeReleasesOnEveryPath := by
  intro d y p answer sends w hw
  obtain ⟨hlive, hchannels, hinv⟩ := hw.after_scopedChannel d y p sends answer
  refine ⟨hlive, hchannels, hinv, fun code hfailed => ?_, fun hgranted => ?_⟩
  · rcases hfailed with rfl | rfl <;> rfl
  · rw [hgranted]
    rfl

/-- Settles O54: the close and the scope leave the live handles, on which the answer depends, as they were. -/
theorem secondOpenSucceeds : Obligations.SecondOpenSucceeds := by
  intro d y p sends w policy hw hpolicy closed left
  obtain ⟨hclosedLive, -, hclosedCount⟩ : closed.live = w.live ∧ _ ∧ closed.granted = w.granted + 1 :=
    closeChannel_openChannel d y p w
  have hleftLive : left.live = w.live := (hw.after_scopedChannel d y p sends .granted).1
  have hleftCount : left.granted = w.granted + 1 := hw.scopedChannel_granted_count d y p sends
  constructor
  · rw [hclosedLive, hpolicy, ← hclosedCount]
    rfl
  · rw [hleftLive, hpolicy, ← hleftCount]
    rfl

end Sys2Proof.Machine

/-! PROOFS. The exceptions of the block: which faults each command raises and what a fault leaves (rules R151, R154),
that a faulted block discards every word until a reset (R155, R156), and that the machine never stops (R179 to R181). -/

namespace Sys2Proof.Machine

/-! ### How a computation is abandoned

`FailsOnly P x` is a law of chains: a chain fails only with what one of its links fails with. Each primitive and each
header then says once which codes it raises, by the hypotheses that `P` admits them. -/

/-- Whatever `x` fails with has the property `P`. -/
def FailsOnly {α : Type} (P : Abandon → Prop) (x : Except Abandon α) : Prop := ∀ e, x = .error e → P e

section FailsOnly

variable {α β : Type} {P : Abandon → Prop}

theorem FailsOnly.ok (a : α) : FailsOnly P (.ok a) := nofun

theorem FailsOnly.error {e : Abandon} (he : P e) : FailsOnly P (.error e : Except Abandon α) := by
  rintro _ ⟨⟩
  exact he

theorem FailsOnly.bind {x : Except Abandon α} {f : α → Except Abandon β} (hx : FailsOnly P x)
    (hf : ∀ a, x = .ok a → FailsOnly P (f a)) : FailsOnly P (x >>= f) := by
  cases x with
  | ok a => exact hf a rfl
  | error e => exact .error (hx e rfl)

section Primitives

variable (hfield : P (.raise .badField)) (hunset : P (.raise .unsetField)) (hoverflow : P (.raise .frameOverflow))
  (hodd : P (.raise .oddLength)) (houtside : P (.raise .badRegion))

include hunset in
theorem FailsOnly.need_bind {x : Option α} {f : α → Except Abandon β} (hf : ∀ v, FailsOnly P (f v)) :
    FailsOnly P (need x >>= f) := by
  rcases need_cases x with ⟨v, -, h⟩ | ⟨-, h⟩
  · exact h ▸ hf v
  · exact h ▸ .error hunset

include hfield in
theorem failsOnly_fieldOfKind (k : FieldKind) (fid : BitVec 8) : FailsOnly P (fieldOfKind k fid) := by
  rcases fieldOfKind_cases k fid with ⟨f, -, -, h⟩ | ⟨-, h⟩
  · exact h ▸ .ok f
  · exact h ▸ .error hfield

include hoverflow in
theorem failsOnly_append (s : State) (bs : List Byte) : FailsOnly P (append s bs) := by
  rcases append_cases s bs with ⟨-, h⟩ | ⟨-, h⟩
  · exact h ▸ .ok _
  · exact h ▸ .error hoverflow

include hodd houtside in
theorem failsOnly_admitRegion (s : State) (base len : BitVec 16) : FailsOnly P (admitRegion s base len) := by
  unfold admitRegion
  split
  · exact .error hodd
  · split
    · exact .error houtside
    · exact .ok ()

include houtside in
theorem failsOnly_admitWord (len : BitVec 16) (cw : BitVec 8) : FailsOnly P (admitWord len cw) := by
  unfold admitWord
  split
  · exact .error houtside
  · exact .ok ()

/-- A read of a region stops the model when the region has no value (log 4). -/
theorem failsOnly_readRegion {s : State} {base len : BitVec 16}
    (hstop : s.fb.readBytes base.toNat len.toNat = none → P (.stop .noByte)) :
    FailsOnly P (readRegion s base len) := by
  unfold readRegion
  split
  · exact .ok _
  · next hnone => exact .error (hstop hnone)

include hodd in
theorem failsOnly_foldedSum (sum : Option (BitVec 16)) : FailsOnly P (foldedSum sum) := by
  cases sum with
  | none => exact .error hodd
  | some v => exact .ok v

/-! The headers and the serializers: chains of `Need`. -/

include hunset in
theorem failsOnly_ethHeader (r : FieldRegs) : FailsOnly P (ethHeader r) :=
  .need_bind hunset fun _ => .need_bind hunset fun _ => .need_bind hunset fun _ => .ok _

include hunset in
theorem failsOnly_arphHeader (r : FieldRegs) : FailsOnly P (arphHeader r) :=
  .need_bind hunset fun _ => .need_bind hunset fun _ => .need_bind hunset fun _ => .ok _

include hunset in
theorem failsOnly_arppPayload (r : FieldRegs) : FailsOnly P (arppPayload r) :=
  .need_bind hunset fun _ => .need_bind hunset fun _ => .need_bind hunset fun _ => .need_bind hunset fun _ => .ok _

include hunset in
theorem failsOnly_ip4Header (r : FieldRegs) : FailsOnly P (ip4Header r) :=
  .need_bind hunset fun _ => .need_bind hunset fun _ => .need_bind hunset fun _ => .need_bind hunset fun _ =>
    .need_bind hunset fun _ => .need_bind hunset fun _ => .need_bind hunset fun _ => .need_bind hunset fun _ =>
    .need_bind hunset fun _ => .need_bind hunset fun _ => .need_bind hunset fun _ => .ok _

include hunset in
theorem failsOnly_udpHeader (r : FieldRegs) : FailsOnly P (udpHeader r) :=
  .need_bind hunset fun _ => .need_bind hunset fun _ => .need_bind hunset fun _ => .need_bind hunset fun _ => .ok _

include hfield hunset in
theorem failsOnly_serMacBytes (fid : BitVec 8) (r : FieldRegs) : FailsOnly P (serMacBytes fid r) :=
  .bind (failsOnly_fieldOfKind hfield _ _) fun _ _ => .need_bind hunset fun _ => .ok _

include hfield hunset in
theorem failsOnly_serIp4Bytes (fid : BitVec 8) (r : FieldRegs) : FailsOnly P (serIp4Bytes fid r) :=
  .bind (failsOnly_fieldOfKind hfield _ _) fun _ _ => .need_bind hunset fun _ => .ok _

include hfield in
theorem failsOnly_setfBody (hvalue : P (.raise .badValue)) (fid : BitVec 8) (val : BitVec 48) (s : State) :
    FailsOnly P (setfBody fid val s) := by
  unfold setfBody
  split
  · exact .error hfield
  · split
    · exact .error hvalue
    · split
      · exact .error hvalue
      · exact .ok _

end Primitives

end FailsOnly

/-! ### How a command is abandoned (rule R151) -/

/-- The fault codes of each command: the column "raised by" of R151, read by rows. -/
@[simp] def raisedBy : Instr → List FaultCode
  | .setf _ _ => [.badField, .badValue]
  | .serMac _ | .serIp4 _ => [.badField, .unsetField, .frameOverflow]
  | .packEth | .packArph | .packArpp | .packIp4 | .packUdp => [.unsetField, .frameOverflow]
  | .csumCompute _ _ _ | .csumVerify _ _ => [.oddLength, .badRegion]
  | .framePutb _ => [.frameOverflow]
  | .frameClear => []

/-- `Abandoned i s e`: the command `i`, executed in the ready block `s`, may be abandoned with `e`. -/
inductive Abandoned (i : Instr) (s : State) : Abandon → Prop
  /-- With a fault of its own (R151). -/
  | raise {c : FaultCode} (hc : c ∈ raisedBy i) : Abandoned i s (.raise c)
  /-- At a byte without a value in an admitted region (log 4). -/
  | noByte {base len : BitVec 16} (hregion : admitRegion s base len = .ok ())
      (hread : s.fb.readBytes base.toNat len.toNat = none) : Abandoned i s (.stop .noByte)

/-- Before its append an appending command raises one of its own codes or none. -/
theorem failsOnly_headerBytes (i : Instr) (s : State) : FailsOnly (Abandoned i s) (headerBytes i s.regs) := by
  cases i with
  | serMac fid => exact failsOnly_serMacBytes (.raise (by simp)) (.raise (by simp)) fid _
  | serIp4 fid => exact failsOnly_serIp4Bytes (.raise (by simp)) (.raise (by simp)) fid _
  | packEth => exact failsOnly_ethHeader (.raise (by simp)) _
  | packArph => exact failsOnly_arphHeader (.raise (by simp)) _
  | packArpp => exact failsOnly_arppPayload (.raise (by simp)) _
  | packIp4 => exact failsOnly_ip4Header (.raise (by simp)) _
  | packUdp => exact failsOnly_udpHeader (.raise (by simp)) _
  | framePutb | setf | csumCompute | csumVerify | frameClear => exact .ok _

theorem frameOverflow_mem_raisedBy {i : Instr} (hi : i.appends = true) : FaultCode.frameOverflow ∈ raisedBy i := by
  cases i with
  | setf | csumCompute | csumVerify | frameClear => cases hi
  | serMac | serIp4 | packEth | packArph | packArpp | packIp4 | packUdp | framePutb => simp

theorem failsOnly_bodyOf_appends {i : Instr} (hi : i.appends = true) (s : State) :
    FailsOnly (Abandoned i s) (bodyOf i s) := by
  rw [bodyOf_appends hi]
  exact .bind (failsOnly_headerBytes i s) fun bs _ =>
    failsOnly_append (.raise (frameOverflow_mem_raisedBy hi)) s bs

theorem failsOnly_csumComputeBody (base len : BitVec 16) (cw : BitVec 8) (s : State) :
    FailsOnly (Abandoned (.csumCompute base len cw) s) (csumComputeBody base len cw s) := by
  have hodd : Abandoned (.csumCompute base len cw) s (.raise .oddLength) := .raise (by simp)
  have houtside : Abandoned (.csumCompute base len cw) s (.raise .badRegion) := .raise (by simp)
  exact .bind (failsOnly_admitRegion hodd houtside s base len) fun _ hregion =>
    .bind (failsOnly_admitWord houtside len cw) fun _ _ =>
    .bind (failsOnly_readRegion (.noByte hregion)) fun _ _ =>
    .bind (failsOnly_foldedSum hodd _) fun _ _ => .ok _

theorem failsOnly_csumVerifyBody (base len : BitVec 16) (s : State) :
    FailsOnly (Abandoned (.csumVerify base len) s) (csumVerifyBody base len s) := by
  have hodd : Abandoned (.csumVerify base len) s (.raise .oddLength) := .raise (by simp)
  have houtside : Abandoned (.csumVerify base len) s (.raise .badRegion) := .raise (by simp)
  exact .bind (failsOnly_admitRegion hodd houtside s base len) fun _ hregion =>
    .bind (failsOnly_readRegion (.noByte hregion)) fun _ _ =>
    .bind (failsOnly_foldedSum hodd _) fun _ _ => .ok _

/-- Everything a command that does not complete can do. The appending commands share one case. -/
theorem failsOnly_bodyOf (i : Instr) (s : State) : FailsOnly (Abandoned i s) (bodyOf i s) := by
  cases i with
  | setf fid val => exact failsOnly_setfBody (.raise (by simp)) (.raise (by simp)) fid val s
  | csumCompute base len cw => exact failsOnly_csumComputeBody base len cw s
  | csumVerify base len => exact failsOnly_csumVerifyBody base len s
  | frameClear => exact .ok _
  | serMac | serIp4 | packEth | packArph | packArpp | packIp4 | packUdp | framePutb =>
    exact failsOnly_bodyOf_appends rfl s

/-! ### The machine never stops (rules R179, R180, R181) -/

/-- A region inside the frame has a value: below `FLEN` every byte has been appended (R18). -/
theorem Inv.readBytes_of_admitRegion {s : State} (h : Inv s) {base len : BitVec 16}
    (hregion : admitRegion s base len = .ok ()) : ∃ bs, s.fb.readBytes base.toNat len.toNat = some bs := by
  obtain ⟨-, hinside⟩ := admitRegion_eq_ok.mp hregion
  exact readBytes_isSome fun k hk => h.written _ (by omega)

theorem Inv.bodyOf_ne_stop {s : State} (h : Inv s) (i : Instr) (r : Fault) : bodyOf i s ≠ .error (.stop r) := by
  intro hstop
  cases failsOnly_bodyOf i s _ hstop with
  | noByte hregion hread =>
    obtain ⟨bs, hbs⟩ := h.readBytes_of_admitRegion hregion
    rw [hread] at hbs
    cases hbs

/-- In a block that has been reset, a command whose body does not stop the model has a next state. -/
theorem runCommand_exists_next {body : State → Except Abandon State} {s : State} (hreset : s.wasReset = true)
    (hbody : ∀ r, body s ≠ .error (.stop r)) : ∃ t, runCommand body s = .next t := by
  cases hfault : s.fault with
  | true => exact ⟨s, runCommand_discards hreset hfault⟩
  | false =>
    have hs : Ready s := ⟨hreset, hfault⟩
    match hb : body s with
    | .ok t => exact ⟨t, runCommand_ok hs hb⟩
    | .error (.raise c) => exact ⟨s.takeFault c, runCommand_raise hs hb⟩
    | .error (.stop r) => exact absurd hb (hbody r)

theorem Inv.issueWord_exists_next {s : State} (h : Inv s) (w : Word) : ∃ t, issueWord w s = .next t := by
  cases hd : decode w with
  | command i =>
    rw [issueWord_of_decode hd, exec_eq_runCommand]
    exact runCommand_exists_next h.wasReset (h.bodyOf_ne_stop i)
  | illegal why =>
    rw [issueWord_of_illegal hd]
    exact runCommand_exists_next h.wasReset nofun

/-- Progress: whatever the host's next move is, it has a next state. -/
theorem Inv.step_exists_next {s : State} (h : Inv s) : ∃ t, step s = .next t := by
  cases hm : s.moves with
  | nil => exact ⟨s, step_idle hm⟩
  | cons m rest =>
    rw [step_move hm]
    cases m with
    | command w => exact (h.setMoves rest).issueWord_exists_next w
    | reset => exact ⟨_, rfl⟩
    | read a => exact ⟨_, rfl⟩

/-- Settles O40, by induction on the number of steps: progress, and `stepKeepsTheInvariant` as preservation. -/
theorem machineNeverStops : Obligations.MachineNeverStops := by
  intro n
  induction n with
  | zero => exact fun s h => ⟨s, run_zero s, h⟩
  | succ n ih =>
    intro s h
    obtain ⟨t, hstep⟩ := h.step_exists_next
    rw [run_succ n hstep]
    exact ih t (stepKeepsTheInvariant s t h hstep)

/-! ### A faulting command (rules R151, R154) -/

/-- A command that completes does not touch `FAULT`. -/
theorem Completes.fault_eq {i : Instr} {s t : State} (h : Completes i s t) : t.fault = s.fault := by
  cases h with
  | setf | append | csumCompute | csumVerify | frameClear => rfl

/-- A command that faults enters one of its own fault codes in the block and does nothing else. -/
theorem exec_faults {i : Instr} {s t : State} (hs : Ready s) (h : exec i s = .next t) (hfault : t.fault = true) :
    ∃ c ∈ raisedBy i, t = s.takeFault c := by
  obtain ⟨-, hnone⟩ := hs
  rw [exec_eq_runCommand] at h
  rcases runCommand_next h with ⟨-, hold, -⟩ | ⟨-, hb⟩ | ⟨c, -, hb, ht⟩
  · exact absurd (hnone.symm.trans hold) Bool.false_ne_true
  · rw [(completes_of_bodyOf hb).fault_eq, hnone] at hfault
    cases hfault
  · cases failsOnly_bodyOf i s _ hb with
    | raise hc => exact ⟨c, hc, ht⟩

/-- Settles O28: fault entry is the two writes, and a fault code is none of 0 and 8 to 15. -/
theorem faultingCommandChangesOnlyFaultAndErr : Obligations.FaultingCommandChangesOnlyFaultAndErr := by
  intro i s t hs h hfault
  obtain ⟨c, -, rfl⟩ := exec_faults hs h hfault
  have hne : c.code.toNat ≠ 0 := fun h0 => c.code_ne_zero (BitVec.eq_of_toNat_eq h0)
  exact ⟨c.code, rfl, Nat.one_le_iff_ne_zero.mpr hne, c.code_le⟩

/-- Settles O29: the numbers of the codes of `raisedBy`, command by command. -/
theorem eachCommandRaisesItsOwnCodes : Obligations.EachCommandRaisesItsOwnCodes := by
  intro i s t hs h hfault
  obtain ⟨c, hc, rfl⟩ := exec_faults hs h hfault
  cases i with
  | setf => exact (by decide : ∀ c ∈ [FaultCode.badField, .badValue], c.code = 2 ∨ c.code = 3) c hc
  | serMac | serIp4 =>
    exact (by decide : ∀ c ∈ [FaultCode.badField, .unsetField, .frameOverflow],
      c.code = 2 ∨ c.code = 4 ∨ c.code = 5) c hc
  | packEth | packArph | packArpp | packIp4 | packUdp =>
    exact (by decide : ∀ c ∈ [FaultCode.unsetField, .frameOverflow], c.code = 4 ∨ c.code = 5) c hc
  | csumCompute | csumVerify =>
    exact (by decide : ∀ c ∈ [FaultCode.oddLength, .badRegion], c.code = 6 ∨ c.code = 7) c hc
  | framePutb => exact (by decide : ∀ c ∈ [FaultCode.frameOverflow], c.code = 5) c hc
  | frameClear => cases hc

/-! ### A faulted block (rules R155, R156) -/

section Faulted

variable {s : State} (hreset : s.wasReset = true) (hfault : s.fault = true)

include hreset hfault

theorem exec_of_fault (i : Instr) : exec i s = .next s := by
  rw [exec_eq_runCommand]
  exact runCommand_discards hreset hfault

/-- Every word is discarded, legal or not. -/
theorem issueWord_of_fault (w : Word) : issueWord w s = .next s := by
  cases hd : decode w with
  | command i => exact (issueWord_of_decode hd s).trans (exec_of_fault hreset hfault i)
  | illegal why => exact (issueWord_of_illegal hd s).trans (runCommand_discards hreset hfault)

/-- A step with a word takes the word off the host's list and does nothing else. -/
theorem step_word_of_fault {w : Word} {rest : List HostMove} (hmoves : s.moves = .command w :: rest) :
    step s = .next (s.setMoves rest) :=
  (step_move hmoves).trans (issueWord_of_fault (s := s.setMoves rest) hreset hfault w)

end Faulted

/-- Settles O30: commands and words are discarded, and the read port does not look at `FAULT`. -/
theorem faultedBlockDiscardsEveryWord : Obligations.FaultedBlockDiscardsEveryWord := fun s hreset hfault =>
  ⟨exec_of_fault hreset hfault, fun _ _ hmoves => step_word_of_fault hreset hfault hmoves,
    fun a b rest hmoves hin hb => (readPortShowsTheFrame s a rest hmoves hreset).1 b hin hb⟩

/-- Settles O31, by induction on the list of words: each step takes one word off the list. -/
theorem faultedBlockSurvivesEveryList : Obligations.FaultedBlockSurvivesEveryList := by
  intro ws
  induction ws with
  | nil =>
    rintro s rest - - rfl
    exact run_zero s
  | cons w ws ih =>
    intro s rest hreset hfault hmoves
    exact (run_succ ws.length (step_word_of_fault hreset hfault hmoves)).trans
      (ih (s.setMoves (ws.map .command ++ rest)) rest hreset hfault rfl)

/-- A command with a next state leaves a faulted block as it was. -/
theorem eq_of_runCommand_of_fault {body : State → Except Abandon State} {s t : State} (hfault : s.fault = true)
    (h : runCommand body s = .next t) : t = s := by
  rcases runCommand_next h with ⟨-, -, ht⟩ | ⟨⟨-, hnone⟩, -⟩ | ⟨-, ⟨-, hnone⟩, -⟩
  · exact ht
  · exact absurd (hnone.symm.trans hfault) Bool.false_ne_true
  · exact absurd (hnone.symm.trans hfault) Bool.false_ne_true

/-- A read changes neither `FAULT` nor `ERR` (R22). -/
theorem readPort_keeps_fault (a : BitVec 16) (s : State) :
    (readPort a s).fault = s.fault ∧ (readPort a s).err = s.err := by
  rcases readPort_cases a s with ⟨b, -, hr⟩ | ⟨-, hr⟩
  · exact hr ▸ ⟨rfl, rfl⟩
  · exact hr ▸ ⟨rfl, rfl⟩

/-- Settles O32, one case per move of the host: an idle step, a read and a discarded word leave `FAULT` and `ERR`. -/
theorem onlyResetClearsTheFault : Obligations.OnlyResetClearsTheFault := by
  intro s t hfault h
  rcases step_cases h with
    ⟨-, rfl⟩ | ⟨rest, ⟨hmoves, -⟩ | ⟨a, -, rfl⟩ | ⟨w, i, -, -, he⟩ | ⟨w, why, -, -, he⟩⟩
  · exact .inl ⟨hfault, rfl⟩
  · exact .inr ⟨rest, hmoves⟩
  · obtain ⟨hsame, herr⟩ := readPort_keeps_fault a (s.setMoves rest)
    exact .inl ⟨hsame.trans hfault, herr⟩
  · rw [exec_eq_runCommand] at he
    obtain rfl := eq_of_runCommand_of_fault (s := s.setMoves rest) hfault he
    exact .inl ⟨hfault, rfl⟩
  · obtain rfl := eq_of_runCommand_of_fault (s := s.setMoves rest) hfault he
    exact .inl ⟨hfault, rfl⟩

end Sys2Proof.Machine

/-! PROOFS. The block before its first reset (rule R172). -/

namespace Sys2Proof.Machine

/-- Before the first reset no word has a step, legal or not (R172). -/
theorem issueWord_of_neverReset {s : State} (h : s.wasReset = false) (w : Word) :
    issueWord w s = .fault .neverReset := by
  cases hd : decode w with
  | command i =>
    rw [issueWord_of_decode hd, exec_eq_runCommand]
    exact runCommand_neverReset h
  | illegal why => exact (issueWord_of_illegal hd s).trans (runCommand_neverReset h)

/-- Settles O11: taking the move off the list does not reset the block, so the word that is issued has no step. -/
theorem neverResetBlockHasNoStep : Obligations.NeverResetBlockHasNoStep := fun s w rest hnever hmoves =>
  (step_move hmoves).trans (issueWord_of_neverReset (s := s.setMoves rest) hnever w)

end Sys2Proof.Machine
